-- ==== Sys2Proof/Word.lean ====
section
/-! DEFINITION. The word of the block's port. The narrower values (16-bit CRCs, seeds and network IDs; 8-bit bytes;
the 4-bit opcode, `TR_V` and `ERR`; the 2-bit trailer index) are written `BitVec n` where they stand. All are unsigned,
and bit 0 is the least significant bit (00_scope.md R5). -/

namespace Sys2Proof

/-- A command word or response data: 32 bits (30_encoding.md R38, R45). -/
abbrev Word := BitVec 32

end Sys2Proof
end

