-- ==== Sys2Proof/Syntax.lean ====
section
/-! DEFINITION. The commands of 30_encoding.md R41, one constructor per row of spec/opcode_table.json. -/

namespace Sys2Proof

/-- A command as the decoder hands it to the block. Each operand has exactly the width of its field (R39: no
extension, no scaling), so every term is a command the encoding can express. -/
inductive Instr where
  /-- `NOP` (42_control.md R71). -/
  | nop
  /-- `CRC_SEED imm16`: the seed (40_crc.md R50). -/
  | crcSeed (imm16 : BitVec 16)
  /-- `CRC_BYTE imm8`: the next message byte (40_crc.md R51). -/
  | crcByte (imm8 : BitVec 8)
  /-- `CRC_READ` (40_crc.md R52). -/
  | crcRead
  /-- `TRL_SET_NID imm16`: the network ID (41_trailer.md R60). -/
  | trlSetNid (imm16 : BitVec 16)
  /-- `TRL_SET_CRC imm16`: the CRC field (41_trailer.md R61). -/
  | trlSetCrc (imm16 : BitVec 16)
  /-- `TRL_CRC_FROM_ACC` (41_trailer.md R62). -/
  | trlCrcFromAcc
  /-- `TRL_WRITE_BYTE idx, imm8` (41_trailer.md R64). -/
  | trlWriteByte (idx : BitVec 2) (imm8 : BitVec 8)
  /-- `TRL_READ_BYTE idx` (41_trailer.md R63). -/
  | trlReadByte (idx : BitVec 2)
  /-- `TRL_READ_NID` (41_trailer.md R65). -/
  | trlReadNid
  /-- `TRL_READ_CRC` (41_trailer.md R66). -/
  | trlReadCrc
  /-- `TRL_CLEAR` (41_trailer.md R68). -/
  | trlClear
  /-- `STAT_READ` (42_control.md R72). -/
  | statRead
  /-- `TRL_DECODE` (41_trailer.md R67). -/
  | trlDecode
  deriving DecidableEq, Repr

end Sys2Proof
end

