-- ==== Sys2Proof/Decode.lean ====
section
/-! DEFINITION. The decoder (30_encoding.md R38 to R44), total on every 32-bit word and rejecting by name, and after it
the encoder. A command word is passed whole on the port; no byte order applies to it (20_memory.md R29). -/

namespace Sys2Proof

/-! ### The fields of a command word (R38, R39) -/

/-- `OP = cmd[31:28]`. -/
def opField (w : Word) : BitVec 4 := w.extractLsb' 28 4

/-- `IDX = cmd[25:24]`. -/
def idxField (w : Word) : BitVec 2 := w.extractLsb' 24 2

/-- `IMM16 = cmd[15:0]`. -/
def imm16Field (w : Word) : BitVec 16 := w.extractLsb' 0 16

/-- `IMM8 = cmd[7:0]`. -/
def imm8Field (w : Word) : BitVec 8 := w.extractLsb' 0 8

/-! ### The opcode map (R41) -/

/-- A row of the opcode map: `pattern` is the column "match". -/
structure OpcodeRow where
  mnemonic : String
  pattern : Word
  mask : Word
  deriving DecidableEq, Repr

/-- "A word selects a command exactly when `(word & mask) == match` for that command's row" (R41). -/
def OpcodeRow.selects (r : OpcodeRow) (w : Word) : Bool := w &&& r.mask == r.pattern

/-- The row of the opcode map that a command stands in (R41, and the must-be-zero bits of R40). -/
def Instr.row : Instr → OpcodeRow
  | .nop              => ⟨"NOP",              0x00000000#32, 0xFFFFFFFF#32⟩
  | .crcSeed _        => ⟨"CRC_SEED",         0x10000000#32, 0xFFFF0000#32⟩
  | .crcByte _        => ⟨"CRC_BYTE",         0x20000000#32, 0xFFFFFF00#32⟩
  | .crcRead          => ⟨"CRC_READ",         0x30000000#32, 0xFFFFFFFF#32⟩
  | .trlSetNid _      => ⟨"TRL_SET_NID",      0x40000000#32, 0xFFFF0000#32⟩
  | .trlSetCrc _      => ⟨"TRL_SET_CRC",      0x50000000#32, 0xFFFF0000#32⟩
  | .trlCrcFromAcc    => ⟨"TRL_CRC_FROM_ACC", 0x60000000#32, 0xFFFFFFFF#32⟩
  | .trlWriteByte _ _ => ⟨"TRL_WRITE_BYTE",   0x70000000#32, 0xFCFFFF00#32⟩
  | .trlReadByte _    => ⟨"TRL_READ_BYTE",    0x80000000#32, 0xFCFFFFFF#32⟩
  | .trlReadNid       => ⟨"TRL_READ_NID",     0x90000000#32, 0xFFFFFFFF#32⟩
  | .trlReadCrc       => ⟨"TRL_READ_CRC",     0xA0000000#32, 0xFFFFFFFF#32⟩
  | .trlClear         => ⟨"TRL_CLEAR",        0xB0000000#32, 0xFFFFFFFF#32⟩
  | .statRead         => ⟨"STAT_READ",        0xC0000000#32, 0xFFFFFFFF#32⟩
  | .trlDecode        => ⟨"TRL_DECODE",       0xD0000000#32, 0xFFFFFFFF#32⟩

/-- The whole opcode map of R41, in the order of `OP`. A row does not depend on its command's operands. -/
def opcodeMap : List OpcodeRow :=
  [Instr.row .nop, Instr.row (.crcSeed 0), Instr.row (.crcByte 0), Instr.row .crcRead,
   Instr.row (.trlSetNid 0), Instr.row (.trlSetCrc 0), Instr.row .trlCrcFromAcc] ++
  [Instr.row (.trlWriteByte 0 0), Instr.row (.trlReadByte 0), Instr.row .trlReadNid, Instr.row .trlReadCrc,
   Instr.row .trlClear, Instr.row .statRead, Instr.row .trlDecode]

/-! ### The decoder -/

/-- What a word is (R44): a command, a word whose must-be-zero bits are not zero (R43), or a word with a reserved
opcode (R42). -/
inductive Decoded where
  | command (i : Instr)
  | rsvNonzero
  | illegalOp
  deriving DecidableEq, Repr

/-- "A decoder reads `OP` and knows everything" (R38): the command `OP` names, with its operands taken from the
word's fields; none for the reserved opcodes 0xE and 0xF (R42). -/
def commandOf (w : Word) : Option Instr :=
  match (opField w).toNat with
  | 0x0 => some .nop
  | 0x1 => some (.crcSeed (imm16Field w))
  | 0x2 => some (.crcByte (imm8Field w))
  | 0x3 => some .crcRead
  | 0x4 => some (.trlSetNid (imm16Field w))
  | 0x5 => some (.trlSetCrc (imm16Field w))
  | 0x6 => some .trlCrcFromAcc
  | 0x7 => some (.trlWriteByte (idxField w) (imm8Field w))
  | 0x8 => some (.trlReadByte (idxField w))
  | 0x9 => some .trlReadNid
  | 0xA => some .trlReadCrc
  | 0xB => some .trlClear
  | 0xC => some .statRead
  | 0xD => some .trlDecode
  | _   => none

/-- The decoder: `OP` first, then the must-be-zero bits (the first two checks of 60_exceptions.md R80). -/
def decode (w : Word) : Decoded :=
  match commandOf w with
  | none => .illegalOp
  | some i => if i.row.selects w then .command i else .rsvNonzero

/-- The host's view of the decoder: the command in a table row's bits. A command is one 32-bit word passed whole
(20_memory.md R29), so the row's bits are the word. -/
def decodeTableWord (nbits w : Nat) : Option Instr :=
  match decode (BitVec.ofNat 32 (w % 2 ^ nbits)) with
  | .command i => some i
  | .rsvNonzero => none
  | .illegalOp => none

/-! ### The encoder -/

/-- A word from its fields, the reserved fields zero (R38). -/
def commandWord (op : BitVec 4) (idx : BitVec 2) (imm : BitVec 16) : Word := op ++ 0#2 ++ idx ++ 0#8 ++ imm

/-- The word of a command, field by field (R40). -/
def encode : Instr → Word
  | .nop              => commandWord 0x0 0 0
  | .crcSeed v        => commandWord 0x1 0 v
  | .crcByte b        => commandWord 0x2 0 (b.setWidth 16)
  | .crcRead          => commandWord 0x3 0 0
  | .trlSetNid v      => commandWord 0x4 0 v
  | .trlSetCrc v      => commandWord 0x5 0 v
  | .trlCrcFromAcc    => commandWord 0x6 0 0
  | .trlWriteByte i b => commandWord 0x7 i (b.setWidth 16)
  | .trlReadByte i    => commandWord 0x8 i 0
  | .trlReadNid       => commandWord 0x9 0 0
  | .trlReadCrc       => commandWord 0xA 0 0
  | .trlClear         => commandWord 0xB 0 0
  | .statRead         => commandWord 0xC 0 0
  | .trlDecode        => commandWord 0xD 0 0

end Sys2Proof
end

