-- ==== Sys2Proof/Config.lean ====
section
/-! DEFINITION. The block's parameters, fixed by 00_scope.md R4 and section 4 (none is an argument of the model), and
the one free value of the model. -/

namespace Sys2Proof

/-- `POLY`, the polynomial without its x^16 term (00_scope.md section 4, 40_crc.md R48). -/
def Config.poly : BitVec 16 := 0x1021#16

/-- The seed the protocol uses; the block takes any (00_scope.md section 4, 40_crc.md R50). -/
def Config.protocolSeed : BitVec 16 := 0xFFFF#16

/-- The CRC field of a trailer whose CRC is disabled (00_scope.md section 4, 90_conflicts.md C2). -/
def Config.placeholderCrc : BitVec 16 := 0x0000#16

/-- FREE VALUE (log entry 4, DESIGN CHOICE). The bytes that stand in `TR` after `TRL_CLEAR`, which 41_trailer.md R68
leaves unspecified: byte number `n` of them. It has no body, so no proof can say what it is. -/
opaque Config.freeByte : Nat → BitVec 8

end Sys2Proof
end

