-- ==== Sys2Proof/Machine/State.lean ====
section
/-! DEFINITION. The state of the block and of its port (10_state.md), the reasons a step can stop, and the state after
reset. Plain data throughout. -/

namespace Sys2Proof.Machine

/-- What the host can do to the block: issue a command word (10_state.md R10), or assert reset, between commands or
while a command is in progress (70_reset_and_hazards.md R88). -/
inductive PortEvent where
  /-- A command word arrives. -/
  | command (w : Word)
  /-- Reset is asserted between commands. -/
  | reset
  /-- Reset is asserted while the command `w` is in progress: that command is abandoned. -/
  | resetDuring (w : Word)
  deriving DecidableEq, Repr

/-- One response, `(RSP_ERR, RSP_DATA)` (30_encoding.md R45). -/
structure Response where
  err : Bool
  data : Word
  deriving DecidableEq, Repr

/-- The error causes of 60_exceptions.md R75; their codes are `ErrorCode.code`. `E_NONE` is no cause. -/
inductive ErrorCode where
  /-- `E_ILLEGAL_OP` (R76). -/
  | illegalOp
  /-- `E_RSV_NONZERO` (R77). -/
  | rsvNonzero
  /-- `E_UNSEEDED` (R78). -/
  | unseeded
  /-- `E_TRL_INCOMPLETE` (R79). -/
  | trlIncomplete
  deriving DecidableEq, Repr

/-- The block's registers (10_state.md R11) and its port. `STATUS`, `NID` and `TCRC` are views (R15, R18), not fields. -/
structure State where
  /-- `ACC`, the CRC accumulator (R12). -/
  acc : BitVec 16
  /-- `ACC_V`: `ACC` holds a value (R13). -/
  accV : Bool
  /-- `TR[0]` to `TR[3]`, the trailer in wire order (R14). -/
  tr : Vector (BitVec 8) 4
  /-- `TR_V`: bit `i` says that `TR[i]` holds a value (R16). -/
  trV : BitVec 4
  /-- `ERR`, the code of the first error since reset (R17). -/
  err : BitVec 4
  /-- What the host has issued and the block has not yet taken, oldest first (log entry 1). -/
  inbox : List PortEvent
  /-- The responses returned so far, oldest first (log entry 2): the model's record, no register of the block. -/
  outbox : List Response
  /-- The model's own counter of free values used (log entry 4); no rule names it. -/
  freeCount : Nat
  deriving DecidableEq, Repr

/-- Reasons the machine stops with a fault: none. The spec names nothing that stops the block; its own faults are
responses after which it takes the next command (60_exceptions.md R81), so they are next states here. -/
inductive Fault where
  deriving DecidableEq, Repr

/-- Reasons a command has no meaning. -/
inductive Refusal where
  /-- Raised by `exec` for a command the model gives no meaning yet (safe). No arm raises it: every command has one. -/
  | notModelled (mnemonic : String)
  deriving DecidableEq, Repr

/-- The block after reset, with nothing issued yet (10_state.md R23, 70_reset_and_hazards.md R87). `acc` and `tr` are
"unspecified" there: DESIGN CHOICE zero, unsafe, log entry 3. `freeCount`: DESIGN CHOICE, log entry 4. -/
def State.reset : State where
  acc := 0x0000#16
  accV := false
  tr := #v[0x00#8, 0x00#8, 0x00#8, 0x00#8]
  trV := 0b0000#4
  err := 0x0#4
  inbox := []
  outbox := []
  freeCount := 0

end Sys2Proof.Machine
end

