-- ==== Sys2Proof/Machine/Flags.lean ====
section
/-! DEFINITION. The validity bits, the error code and the status word (10_state.md R13, R16 to R18; 60_exceptions.md
R75). The block has no condition codes and no other flag (R19). -/

namespace Sys2Proof.Machine

/-- The error codes of 60_exceptions.md R75. -/
def ErrorCode.code : ErrorCode → BitVec 4
  | .illegalOp => 0x1
  | .rsvNonzero => 0x2
  | .unseeded => 0x3
  | .trlIncomplete => 0x4

/-- `ERR` after a fault: the first code since reset is kept (10_state.md R17). -/
def stickyErr (old : BitVec 4) (c : ErrorCode) : BitVec 4 := if old = 0x0#4 then c.code else old

/-- The `TR_V` bit of one trailer byte (R16). -/
def byteMask (i : BitVec 2) : BitVec 4 := 0b0001#4 <<< i.toNat

/-- The `TR_V` bits of the network ID field: bytes 0 and 1 (R16). -/
def nidMask : BitVec 4 := 0b0011#4

/-- The `TR_V` bits of the CRC field: bytes 2 and 3 (R16). -/
def crcMask : BitVec 4 := 0b1100#4

/-- The `TR_V` bits of the whole trailer. -/
def trailerMask : BitVec 4 := 0b1111#4

/-- Every byte of the mask `need` holds a value (60_exceptions.md R79). -/
def allValid (trV need : BitVec 4) : Bool := trV &&& need == need

/-- `STATUS` (10_state.md R18): bits 11:8 `ERR`, bit 4 `ACC_V`, bits 3:0 `TR_V`, the others zero. -/
def statusWord (err : BitVec 4) (accV : Bool) (trV : BitVec 4) : Word :=
  0#20 ++ err ++ 0#3 ++ BitVec.ofBool accV ++ trV

end Sys2Proof.Machine
end

