-- ==== Sys2Proof/Machine/Operands.lean ====
section
/-! DEFINITION. Bytes and fields (00_scope.md R5, 20_memory.md R26): nothing sign-extends, nothing is byte-swapped. -/

namespace Sys2Proof.Machine

/-- `v[7:0]`. -/
def loByte (v : BitVec 16) : BitVec 8 := v.extractLsb' 0 8

/-- `v[15:8]`. -/
def hiByte (v : BitVec 16) : BitVec 8 := v.extractLsb' 8 8

/-- `{hi, lo}` (R5). -/
def join16 (hi lo : BitVec 8) : BitVec 16 := hi ++ lo

/-- `{b3, b2, b1, b0}` (R5). -/
def join32 (b3 b2 b1 b0 : BitVec 8) : Word := b3 ++ b2 ++ b1 ++ b0

/-- `zext_32(v)` (R5). -/
def zext32 {n : Nat} (v : BitVec n) : Word := v.setWidth 32

end Sys2Proof.Machine
end

