-- ==== Sys2Proof/Machine/Ops.lean ====
section
/-! DEFINITION. The named operations on the registers and the port: every meaning is built from them. -/

namespace Sys2Proof.Machine

/-- What a meaning answers. -/
abbrev Result := Host.Outcome State Fault Refusal

/-! ### The trailer register (10_state.md R14, R15; 20_memory.md R25, R26) -/

/-- `TR[i]`, whether or not it holds a value; every 2-bit index is valid (R25). -/
def State.trByte (s : State) (i : BitVec 2) : BitVec 8 := s.tr[i.toNat]'i.isLt

/-- `TR[i] <- b` and `TR_V[i] <- 1` (R16). -/
def State.putTrByte (s : State) (i : BitVec 2) (b : BitVec 8) : State :=
  { s with tr := s.tr.set i.toNat b i.isLt, trV := s.trV ||| byteMask i }

/-- The view `NID = {TR[1], TR[0]}` (R15). -/
def State.nid (s : State) : BitVec 16 := join16 (s.trByte 1#2) (s.trByte 0#2)

/-- The view `TCRC = {TR[3], TR[2]}` (R15). -/
def State.tcrc (s : State) : BitVec 16 := join16 (s.trByte 3#2) (s.trByte 2#2)

/-- The four bytes `{TR[3], TR[2], TR[1], TR[0]}` (41_trailer.md R67). -/
def State.trailerWord (s : State) : Word := join32 (s.trByte 3#2) (s.trByte 2#2) (s.trByte 1#2) (s.trByte 0#2)

/-- Write the network ID field, low byte at the lower index (R26). -/
def State.putNid (s : State) (v : BitVec 16) : State := (s.putTrByte 0#2 (loByte v)).putTrByte 1#2 (hiByte v)

/-- Write the CRC field, low byte at the lower index (R26). -/
def State.putTcrc (s : State) (v : BitVec 16) : State := (s.putTrByte 2#2 (loByte v)).putTrByte 3#2 (hiByte v)

/-- Mark every trailer byte as not written (41_trailer.md R68). The bytes are "unspecified" after it: they become
fresh free values (log entry 4). -/
def State.clearTrailer (s : State) : State :=
  { s with
    trV := 0b0000#4
    tr := #v[Config.freeByte s.freeCount, Config.freeByte (s.freeCount + 1),
             Config.freeByte (s.freeCount + 2), Config.freeByte (s.freeCount + 3)]
    freeCount := s.freeCount + 4 }

/-! ### The accumulator (10_state.md R12, R13) -/

/-- `ACC <- v`, leaving `ACC_V` as it is. -/
def State.setAcc (s : State) (v : BitVec 16) : State := { s with acc := v }

/-- `ACC <- v` and `ACC_V <- 1`. -/
def State.seedAcc (s : State) (v : BitVec 16) : State := { s with acc := v, accV := true }

/-! ### Responses and faults (30_encoding.md R45, 60_exceptions.md R81) -/

/-- `respond(v)`: success with data `v` (00_scope.md R6). -/
def State.respond (s : State) (v : Word) : State := { s with outbox := s.outbox ++ [⟨false, v⟩] }

/-- `raise Fault(c)`: the block's one way of taking an exception (R81). `ERR` keeps the first code, the response is an
error with this command's code, and nothing else changes. No register is saved and control goes nowhere, so there is
no return from it (R83): the block takes its next command. -/
def State.raiseFault (s : State) (c : ErrorCode) : State :=
  { s with err := stickyErr s.err c, outbox := s.outbox ++ [⟨true, zext32 c.code⟩] }

/-- Run a command that reads `ACC`: `E_UNSEEDED` while `ACC_V = 0` (60_exceptions.md R78). -/
def State.withAcc (s : State) (k : BitVec 16 → State) : Result :=
  if s.accV then .next (k s.acc) else .next (s.raiseFault .unseeded)

/-- Run a command that reads the trailer bytes of the mask `need`: `E_TRL_INCOMPLETE` while one of them is not valid
(60_exceptions.md R79). -/
def State.withTrailer (s : State) (need : BitVec 4) (k : State) : Result :=
  if allValid s.trV need then .next k else .next (s.raiseFault .trlIncomplete)

/-! ### Reset (70_reset_and_hazards.md R87, R88) -/

/-- Every register takes its reset value. The responses already returned stay returned; what the host has issued for
after the reset stays issued. -/
def State.applyReset (s : State) : State :=
  { s with
    acc := State.reset.acc
    accV := State.reset.accV
    tr := State.reset.tr
    trV := State.reset.trV
    err := State.reset.err }

end Sys2Proof.Machine
end

