-- ==== Sys2Proof/Machine/Control.lean ====
section
/-! DEFINITION. The control and status commands (42_control.md). -/

namespace Sys2Proof.Machine

/-- `NOP` (R71). -/
def execNop (s : State) : Result := .next (s.respond 0)

/-- `STAT_READ` (R72): it reads the validity bits, never `ACC` or `TR`, so it never faults. -/
def execStatRead (s : State) : Result := .next (s.respond (statusWord s.err s.accV s.trV))

end Sys2Proof.Machine
end

