-- ==== Sys2Proof/Machine/Checksum.lean ====
section
/-! DEFINITION. The CRC function (40_crc.md R48, R49). -/

namespace Sys2Proof.Machine

/-- One iteration of the bit-serial loop (R48): shift left, and XOR the polynomial in if bit 15 was set. -/
def crcShift (a : BitVec 16) : BitVec 16 :=
  if a.getLsbD 15 then (a <<< 1) ^^^ Config.poly else a <<< 1

/-- `n` iterations of the loop. -/
def crcIterate : Nat → BitVec 16 → BitVec 16
  | 0, a => a
  | n + 1, a => crcIterate n (crcShift a)

/-- `crc_step(acc, byte)`: the byte lands in `a[15:8]`, then 8 iterations (R48). -/
def crcStep (acc : BitVec 16) (byte : BitVec 8) : BitVec 16 := crcIterate 8 (acc ^^^ (byte.setWidth 16 <<< 8))

/-- `crc16(bytes, seed)` (R49). -/
def crc16 : List (BitVec 8) → BitVec 16 → BitVec 16
  | [], seed => seed
  | b :: rest, seed => crc16 rest (crcStep seed b)

end Sys2Proof.Machine
end

