-- ==== Sys2Proof/Machine/Crc.lean ====
section
/-! DEFINITION. The CRC generator commands (40_crc.md section 2). -/

namespace Sys2Proof.Machine

/-- `CRC_SEED imm16` (R50). -/
def execCrcSeed (imm16 : BitVec 16) (s : State) : Result := .next ((s.seedAcc imm16).respond 0)

/-- `CRC_BYTE imm8` (R51): all 8 iterations in this one command. -/
def execCrcByte (imm8 : BitVec 8) (s : State) : Result :=
  s.withAcc fun acc => (s.setAcc (crcStep acc imm8)).respond 0

/-- `CRC_READ` (R52). -/
def execCrcRead (s : State) : Result := s.withAcc fun acc => s.respond (zext32 acc)

end Sys2Proof.Machine
end

