-- ==== Sys2Proof/Machine/Trl.lean ====
section
/-! DEFINITION. The trailer codec commands (41_trailer.md sections 2 and 3). -/

namespace Sys2Proof.Machine

/-- `TRL_SET_NID imm16` (R60). -/
def execTrlSetNid (imm16 : BitVec 16) (s : State) : Result := .next ((s.putNid imm16).respond 0)

/-- `TRL_SET_CRC imm16` (R61). -/
def execTrlSetCrc (imm16 : BitVec 16) (s : State) : Result := .next ((s.putTcrc imm16).respond 0)

/-- `TRL_CRC_FROM_ACC` (R62): `ACC` as it stands when the command runs. -/
def execTrlCrcFromAcc (s : State) : Result := s.withAcc fun acc => (s.putTcrc acc).respond 0

/-- `TRL_READ_BYTE idx` (R63): only the byte read must be valid. -/
def execTrlReadByte (idx : BitVec 2) (s : State) : Result :=
  s.withTrailer (byteMask idx) (s.respond (zext32 (s.trByte idx)))

/-- `TRL_WRITE_BYTE idx, imm8` (R64). -/
def execTrlWriteByte (idx : BitVec 2) (imm8 : BitVec 8) (s : State) : Result :=
  .next ((s.putTrByte idx imm8).respond 0)

/-- `TRL_READ_NID` (R65): bytes 0 and 1 must be valid. -/
def execTrlReadNid (s : State) : Result := s.withTrailer nidMask (s.respond (zext32 s.nid))

/-- `TRL_READ_CRC` (R66): bytes 2 and 3 must be valid. -/
def execTrlReadCrc (s : State) : Result := s.withTrailer crcMask (s.respond (zext32 s.tcrc))

/-- `TRL_DECODE` (R67): all four bytes must be valid. -/
def execTrlDecode (s : State) : Result := s.withTrailer trailerMask (s.respond s.trailerWord)

/-- `TRL_CLEAR` (R68). -/
def execTrlClear (s : State) : Result := .next (s.clearTrailer.respond 0)

end Sys2Proof.Machine
end

