-- ==== Sys2Proof/Machine/Dispatch.lean ====
section
/-! DEFINITION. One arm per command, each one direct call of its meaning. -/

namespace Sys2Proof.Machine

open Sys2Proof

-- What a command does once it is taken from the port; the checks of R80 on the word itself are the decoder's.
def exec (i : Instr) (s : State) : Host.Outcome State Fault Refusal :=
  match i with
  | .nop => Sys2Proof.Machine.execNop s
  | .crcSeed imm16 => Sys2Proof.Machine.execCrcSeed imm16 s
  | .crcByte imm8 => Sys2Proof.Machine.execCrcByte imm8 s
  | .crcRead => Sys2Proof.Machine.execCrcRead s
  | .trlSetNid imm16 => Sys2Proof.Machine.execTrlSetNid imm16 s
  | .trlSetCrc imm16 => Sys2Proof.Machine.execTrlSetCrc imm16 s
  | .trlCrcFromAcc => Sys2Proof.Machine.execTrlCrcFromAcc s
  | .trlWriteByte idx imm8 => Sys2Proof.Machine.execTrlWriteByte idx imm8 s
  | .trlReadByte idx => Sys2Proof.Machine.execTrlReadByte idx s
  | .trlReadNid => Sys2Proof.Machine.execTrlReadNid s
  | .trlReadCrc => Sys2Proof.Machine.execTrlReadCrc s
  | .trlClear => Sys2Proof.Machine.execTrlClear s
  | .statRead => Sys2Proof.Machine.execStatRead s
  | .trlDecode => Sys2Proof.Machine.execTrlDecode s

end Sys2Proof.Machine
end

