-- ==== Sys2Proof/Machine/Port.lean ====
section
/-! DEFINITION. The block's command port: what the host issues, and what each event of the port does
(10_state.md R9, R10; 30_encoding.md R42, R43; 70_reset_and_hazards.md R87, R88). -/

namespace Sys2Proof.Machine

/-! ### The host's side -/

/-- The host issues a sequence of command words, behind what it has already issued (10_state.md R10, 20_memory.md
R35). -/
def State.issueWords (s : State) (ws : List Word) : State := { s with inbox := s.inbox ++ ws.map .command }

/-- The host issues a sequence of commands (10_state.md R10). -/
def State.issueCommands (s : State) (is : List Instr) : State := s.issueWords (is.map encode)

/-- The next event of the port is the command word `w` (log entry 5). -/
def State.offerWord (s : State) (w : Word) : State := { s with inbox := .command w :: s.inbox }

/-! ### The block's side -/

/-- The port after its oldest event is taken: `rest` is what is left. -/
def State.takeEvent (s : State) (rest : List PortEvent) : State := { s with inbox := rest }

/-- A word with a reserved opcode, whatever its other bits (30_encoding.md R42, 60_exceptions.md R76). -/
def rejectIllegalOp (s : State) : Result := .next (s.raiseFault .illegalOp)

/-- A word with a must-be-zero bit set (30_encoding.md R43, 60_exceptions.md R77). -/
def rejectRsvNonzero (s : State) : Result := .next (s.raiseFault .rsvNonzero)

/-- One command word: the decoder's checks come first, then the command's own (60_exceptions.md R80). -/
def runWord (w : Word) (s : State) : Result :=
  match decode w with
  | .illegalOp => rejectIllegalOp s
  | .rsvNonzero => rejectRsvNonzero s
  | .command i => exec i s

/-- Reset between commands (70_reset_and_hazards.md R87, R88). -/
def takeReset (s : State) : Result := .next s.applyReset

/-- Reset while the command `w` is in progress: it is abandoned, with no response, and its effects are lost with the
rest of the state (70_reset_and_hazards.md R88), whatever the word is (log entry 6). -/
def takeResetDuring (_w : Word) (s : State) : Result := .next s.applyReset

/-- No event is waiting: the block never acts on its own (10_state.md R9), so nothing changes (log entry 1). -/
def idle (s : State) : Result := .next s

end Sys2Proof.Machine
end

