-- ==== Sys2Proof/Machine/Step.lean ====
section
/-! DEFINITION. One step of the block: it takes the oldest event of its port (20_memory.md R31, R35). -/

namespace Sys2Proof.Machine

/-- One step; each command is one indivisible step (20_memory.md R31). -/
def step (s : State) : Host.Outcome State Fault Refusal :=
  match s.inbox with
  | [] => idle s
  | .command w :: rest => runWord w (s.takeEvent rest)
  | .reset :: rest => takeReset (s.takeEvent rest)
  | .resetDuring w :: rest => takeResetDuring w (s.takeEvent rest)

/-- `s` with the word whose bits are `w` as the next command the block takes. The block fetches nothing (10_state.md
R10): a program is what the host issues, and this stands for the host issuing one word (log entry 5). -/
def State.withFetchWord (s : State) (nbits w : Nat) : State := s.offerWord (BitVec.ofNat 32 (w % 2 ^ nbits))

end Sys2Proof.Machine
end

