-- ==== Sys2Proof/WellFormed.lean ====
section
/-! DEFINITION. Commands as an assembler reads them, with numbers of any size for operands, and the checks
30_encoding.md R46 puts on them. A command of `Instr` needs no check: its operands have their fields' widths. -/

namespace Sys2Proof

/-- One command line of 30_encoding.md R46: the mnemonic and its operands as plain numbers. -/
inductive AsmCmd where
  | nop
  | crcSeed (imm16 : Nat)
  | crcByte (imm8 : Nat)
  | crcRead
  | trlSetNid (imm16 : Nat)
  | trlSetCrc (imm16 : Nat)
  | trlCrcFromAcc
  | trlWriteByte (idx imm8 : Nat)
  | trlReadByte (idx : Nat)
  | trlReadNid
  | trlReadCrc
  | trlClear
  | statRead
  | trlDecode
  deriving DecidableEq, Repr

/-- R46: "An assembler refuses an `imm16` above 0xFFFF, an `imm8` above 0xFF and an `idx` above 3." -/
def AsmCmd.wellFormed : AsmCmd → Bool
  | .crcSeed v => decide (v ≤ 0xFFFF)
  | .crcByte b => decide (b ≤ 0xFF)
  | .trlSetNid v => decide (v ≤ 0xFFFF)
  | .trlSetCrc v => decide (v ≤ 0xFFFF)
  | .trlWriteByte i b => decide (i ≤ 3) && decide (b ≤ 0xFF)
  | .trlReadByte i => decide (i ≤ 3)
  | .nop | .crcRead | .trlCrcFromAcc | .trlReadNid | .trlReadCrc | .trlClear | .statRead | .trlDecode => true

end Sys2Proof
end

