-- ==== Sys2Proof/Machine/Assembler.lean ====
section
/-! DEFINITION. The assembler of 30_encoding.md R46: from a command line to the command word. What R46 does not say
(spaces, letter case) is log entry 13. -/

namespace Sys2Proof.Machine

/-- The command a line stands for; an operand out of range is refused, never truncated (R46). -/
def commandOfAsm (c : AsmCmd) : Option Instr :=
  if c.wellFormed then
    some (match c with
      | .nop => .nop
      | .crcSeed v => .crcSeed (BitVec.ofNat 16 v)
      | .crcByte b => .crcByte (BitVec.ofNat 8 b)
      | .crcRead => .crcRead
      | .trlSetNid v => .trlSetNid (BitVec.ofNat 16 v)
      | .trlSetCrc v => .trlSetCrc (BitVec.ofNat 16 v)
      | .trlCrcFromAcc => .trlCrcFromAcc
      | .trlWriteByte i b => .trlWriteByte (BitVec.ofNat 2 i) (BitVec.ofNat 8 b)
      | .trlReadByte i => .trlReadByte (BitVec.ofNat 2 i)
      | .trlReadNid => .trlReadNid
      | .trlReadCrc => .trlReadCrc
      | .trlClear => .trlClear
      | .statRead => .statRead
      | .trlDecode => .trlDecode)
  else none

/-- The word of a command line (R46, column "encoding"). -/
def assemble (c : AsmCmd) : Option Word := (commandOfAsm c).map encode

/-! ### The text of a line -/

/-- A line without the spaces at its two ends. -/
def trimSpaces (cs : List Char) : List Char :=
  ((cs.dropWhile (· == ' ')).reverse.dropWhile (· == ' ')).reverse

/-- The pieces of a line between its commas. -/
def splitCommas : List Char → List (List Char)
  | [] => [[]]
  | c :: cs =>
    match splitCommas cs with
    | [] => [[c]]
    | p :: ps => if c == ',' then [] :: p :: ps else (c :: p) :: ps

/-- The value of a digit, hexadecimal digits in either case. -/
def digitValue (c : Char) : Option Nat :=
  let n := c.toNat
  if 0x30 ≤ n && n ≤ 0x39 then some (n - 0x30)
  else if 0x41 ≤ n && n ≤ 0x46 then some (n - 0x41 + 10)
  else if 0x61 ≤ n && n ≤ 0x66 then some (n - 0x61 + 10)
  else none

/-- The number a list of digits denotes in a base, going on from `acc`. -/
def digitsValue (base : Nat) : Nat → List Char → Option Nat
  | acc, [] => some acc
  | acc, c :: cs =>
    match digitValue c with
    | some d => if d < base then digitsValue base (acc * base + d) cs else none
    | none => none

/-- An immediate: "`0x`-hexadecimal or decimal" (R46). -/
def parseNumber : List Char → Option Nat
  | '0' :: 'x' :: d :: ds => digitsValue 16 0 (d :: ds)
  | d :: ds => digitsValue 10 0 (d :: ds)
  | [] => none

/-- The command of a mnemonic with its operands, if R46 has a line of that shape. -/
def asmCmdOf (mnemonic : List Char) (operands : List Nat) : Option AsmCmd :=
  match String.ofList mnemonic, operands with
  | "NOP", [] => some .nop
  | "CRC_SEED", [v] => some (.crcSeed v)
  | "CRC_BYTE", [b] => some (.crcByte b)
  | "CRC_READ", [] => some .crcRead
  | "TRL_SET_NID", [v] => some (.trlSetNid v)
  | "TRL_SET_CRC", [v] => some (.trlSetCrc v)
  | "TRL_CRC_FROM_ACC", [] => some .trlCrcFromAcc
  | "TRL_WRITE_BYTE", [i, b] => some (.trlWriteByte i b)
  | "TRL_READ_BYTE", [i] => some (.trlReadByte i)
  | "TRL_READ_NID", [] => some .trlReadNid
  | "TRL_READ_CRC", [] => some .trlReadCrc
  | "TRL_CLEAR", [] => some .trlClear
  | "STAT_READ", [] => some .statRead
  | "TRL_DECODE", [] => some .trlDecode
  | _, _ => none

/-- One line: "the mnemonic, then its operands separated by commas" (R46). -/
def parseLine (line : List Char) : Option AsmCmd :=
  let cs := trimSpaces line
  let mnemonic := cs.takeWhile (· != ' ')
  let rest := trimSpaces (cs.dropWhile (· != ' '))
  match rest with
  | [] => asmCmdOf mnemonic []
  | _ :: _ =>
    match (splitCommas rest).mapM fun p => parseNumber (trimSpaces p) with
    | some operands => asmCmdOf mnemonic operands
    | none => none

/-- The word of one line of assembler text. -/
def assembleLine (line : List Char) : Option Word :=
  match parseLine line with
  | some c => assemble c
  | none => none

end Sys2Proof.Machine
end

