-- ==== Sys2Proof/Machine/Pseudo.lean ====
section
/-! DEFINITION. The pseudo-commands of 30_encoding.md R47: fixed command sequences, each one operation of the source. -/

namespace Sys2Proof.Machine

/-- A pseudo-command (R47). -/
inductive Pseudo where
  /-- `CRC16 seed, [b0, ..., b(n-1)]`. -/
  | crc16 (seed : BitVec 16) (bytes : List (BitVec 8))
  /-- `ENCODE_TRAILER nid, crc`. -/
  | encodeTrailer (nid crc : BitVec 16)
  /-- `ENCODE_TRAILER_ACC nid`: the CRC taken straight from `ACC`. -/
  | encodeTrailerAcc (nid : BitVec 16)
  /-- `EMIT_TRAILER`. -/
  | emitTrailer
  /-- `DECODE_TRAILER t0, t1, t2, t3`. -/
  | decodeTrailer (t0 t1 t2 t3 : BitVec 8)
  deriving DecidableEq, Repr

/-- The expansion of a pseudo-command (R47). -/
def expandPseudo : Pseudo → List Instr
  | .crc16 seed bytes => [.crcSeed seed] ++ bytes.map .crcByte ++ [.crcRead]
  | .encodeTrailer nid crc => [.trlSetNid nid, .trlSetCrc crc]
  | .encodeTrailerAcc nid => [.trlSetNid nid, .trlCrcFromAcc]
  | .emitTrailer => [.trlReadByte 0, .trlReadByte 1, .trlReadByte 2, .trlReadByte 3]
  | .decodeTrailer t0 t1 t2 t3 =>
    [.trlClear, .trlWriteByte 0 t0, .trlWriteByte 1 t1, .trlWriteByte 2 t2, .trlWriteByte 3 t3, .trlDecode]

end Sys2Proof.Machine
end

