-- ==== Sys2Proof/Machine/Codec.lean ====
section
/-! DEFINITION. The trailer codec as functions (41_trailer.md R58, R59). -/

namespace Sys2Proof.Machine

/-- A decoded trailer: `{ network_id, payload_crc }` (R59). -/
structure Trailer where
  networkId : BitVec 16
  payloadCrc : BitVec 16
  deriving DecidableEq, Repr

/-- `encode_trailer(nid, crc)`: the four bytes in wire order (R58). -/
def encodeTrailer (nid crc : BitVec 16) : Vector (BitVec 8) 4 := #v[loByte nid, hiByte nid, loByte crc, hiByte crc]

/-- `decode_trailer([t0, t1, t2, t3])`: exactly the four trailer bytes (R59, decision D7). -/
def decodeTrailer (t : Vector (BitVec 8) 4) : Trailer where
  networkId := join16 t[1] t[0]
  payloadCrc := join16 t[3] t[2]

/-- The frame the host puts on the wire (R58): the payload, then its trailer; the placeholder CRC under `no_crc`
(90_conflicts.md C2). The block builds the last four bytes of it only (10_state.md R22). -/
def frameBytes (noCrc : Bool) (nid : BitVec 16) (payload : List (BitVec 8)) : List (BitVec 8) :=
  payload ++
    (encodeTrailer nid (if noCrc then Config.placeholderCrc else crc16 payload Config.protocolSeed)).toList

end Sys2Proof.Machine
end

