-- ==== Sys2Proof/Safety.lean ====
section
/-! DEFINITION. The terms claims use: recorded faults, legal codes, which commands read and write what, and when two
states cannot be told apart. -/

namespace Sys2Proof.Safety

open Sys2Proof.Machine

/-- No fault recorded: the premise 60_exceptions.md R82 wants of a claim about a sequence. -/
abbrev NoFaultRecorded (s : State) : Prop := s.err = 0#4

/-- A code that 60_exceptions.md R75 lists, `E_NONE` among them. -/
abbrev ListedCode (c : BitVec 4) : Prop := c.toNat ≤ 4

/-- A response in the form of 30_encoding.md R45: an error carries one of the codes 1 to 4 of 60_exceptions.md R75. -/
abbrev LegalResponse (r : Response) : Prop := r.err = true → 1 ≤ r.data.toNat ∧ r.data.toNat ≤ 4

/-- The reserved codes 5 to F are never produced (60_exceptions.md R75, 93_implementation_defined.md I12): not in
`ERR`, and not in any response. -/
def CodesListed (s : State) : Prop := ListedCode s.err ∧ ∀ r ∈ s.outbox, LegalResponse r

/-- The read commands of 20_memory.md R32. -/
def isReadCommand : Instr → Bool
  | .crcRead | .trlReadByte _ | .trlReadNid | .trlReadCrc | .trlDecode | .statRead => true
  | .nop | .crcSeed _ | .crcByte _ | .trlSetNid _ | .trlSetCrc _ | .trlCrcFromAcc | .trlWriteByte _ _
  | .trlClear => false

/-- The commands that read `ACC` (10_state.md R12). -/
def readsAcc : Instr → Bool
  | .crcByte _ | .crcRead | .trlCrcFromAcc => true
  | .nop | .crcSeed _ | .trlSetNid _ | .trlSetCrc _ | .trlWriteByte _ _ | .trlReadByte _ | .trlReadNid
  | .trlReadCrc | .trlClear | .statRead | .trlDecode => false

/-- The trailer bytes a command needs (60_exceptions.md R79), as a predicate on the index. -/
def needsTrailerByte (i : Instr) (j : BitVec 2) : Bool :=
  match i with
  | .trlReadByte idx => j == idx
  | .trlReadNid => j == 0 || j == 1
  | .trlReadCrc => j == 2 || j == 3
  | .trlDecode => true
  | .nop | .crcSeed _ | .crcByte _ | .crcRead | .trlSetNid _ | .trlSetCrc _ | .trlCrcFromAcc | .trlWriteByte _ _
  | .trlClear | .statRead => false

/-- The trailer bytes a command writes (10_state.md R16), as a predicate on the index. -/
def writesTrailerByte (i : Instr) (j : BitVec 2) : Bool :=
  match i with
  | .trlSetNid _ => j == 0 || j == 1
  | .trlSetCrc _ | .trlCrcFromAcc => j == 2 || j == 3
  | .trlWriteByte idx _ => j == idx
  | .nop | .crcSeed _ | .crcByte _ | .crcRead | .trlReadByte _ | .trlReadNid | .trlReadCrc | .trlClear | .statRead
  | .trlDecode => false

/-- `TR_V[i] = 1` (10_state.md R16). -/
abbrev TrailerByteValid (s : State) (i : BitVec 2) : Prop := s.trV.getLsbD i.toNat = true

/-- Two states that differ at most in registers that hold no value (00_scope.md R8): `ACC` while `ACC_V = 0`, a
trailer byte while its `TR_V` bit is 0. -/
structure SameValues (s t : State) : Prop where
  accV : s.accV = t.accV
  trV : s.trV = t.trV
  err : s.err = t.err
  inbox : s.inbox = t.inbox
  outbox : s.outbox = t.outbox
  acc : s.accV = true → s.acc = t.acc
  tr : ∀ i : BitVec 2, TrailerByteValid s i → s.trByte i = t.trByte i

/-- Commands executed one after another (20_memory.md R35), past the port. -/
def execAll : List Instr → State → Result
  | [], s => .next s
  | i :: is, s =>
    match exec i s with
    | .next t => execAll is t
    | .fault r => .fault r
    | .refused r => .refused r

/-- The message a sequence of command words feeds to the CRC: the bytes of its `CRC_BYTE` words, in order
(40_crc.md R53). -/
def messageBytes : List Word → List (BitVec 8)
  | [] => []
  | w :: ws =>
    match decode w with
    | .command (.crcByte b) => b :: messageBytes ws
    | _ => messageBytes ws

/-- The code of the first error in a list of responses, `E_NONE` if there is none (10_state.md R17). -/
def firstError : List Response → BitVec 4
  | [] => 0x0#4
  | r :: rs => if r.err then r.data.setWidth 4 else firstError rs

/-- `ERR` is the code of the first error among the responses that follow `base`, each of which has a legal form: the
recorded fault of 10_state.md R17 and 60_exceptions.md R82, with `base` the responses up to the last reset. -/
def ErrIsFirstSince (base : List Response) (s : State) : Prop :=
  ∃ rs, s.outbox = base ++ rs ∧ (∀ r ∈ rs, LegalResponse r) ∧ s.err = firstError rs

end Sys2Proof.Safety
end

