-- ==== Sys2Proof/Certificates/Slice0/Obligations.lean ====
section
/-! DEFINITION. The statements for the provers. Each docstring names the rule of spec/ it formalises. A record update
of `s` on the right of an equation is the command's frame as well: every field it does not name is unchanged. -/

open Sys2Proof Sys2Proof.Machine Sys2Proof.Safety

/-! ### Each command: its result, its frame, its encoding, its faults -/

/-- 42_control.md R71: `NOP` does nothing but respond, and 0x00000000 is its only word. -/
def Obligations.NopOnlyResponds : Prop :=
  (∀ s : State, exec .nop s = .next { s with outbox := s.outbox ++ [⟨false, 0⟩] }) ∧
  (∀ w : Word, w.extractLsb' 28 4 = 0x0#4 → decode w = if w = 0 then .command .nop else .rsvNonzero)

/-- 40_crc.md R50: `CRC_SEED` loads `ACC`, sets `ACC_V` and changes nothing else. -/
def Obligations.CrcSeedLoadsAcc : Prop :=
  (∀ (s : State) v,
    exec (.crcSeed v) s = .next { s with acc := v, accV := true, outbox := s.outbox ++ [⟨false, 0⟩] }) ∧
  (∀ w : Word, w.extractLsb' 28 4 = 0x1#4 →
    decode w = if w.extractLsb' 16 12 = 0 then .command (.crcSeed (w.extractLsb' 0 16)) else .rsvNonzero)

/-- 40_crc.md R51: `CRC_BYTE` advances `ACC` by one `crc_step` while `ACC_V = 1`, and raises `E_UNSEEDED` with `ACC`
unchanged while `ACC_V = 0`; `IMMH` is not truncated away. -/
def Obligations.CrcByteStepsAcc : Prop :=
  (∀ (s : State) b, s.accV = true →
    exec (.crcByte b) s = .next { s with acc := crcStep s.acc b, outbox := s.outbox ++ [⟨false, 0⟩] }) ∧
  (∀ (s : State) b, s.accV = false →
    exec (.crcByte b) s =
      .next { s with err := if s.err = 0 then 3 else s.err, outbox := s.outbox ++ [⟨true, 3⟩] }) ∧
  (∀ w : Word, w.extractLsb' 28 4 = 0x2#4 →
    decode w = if w.extractLsb' 8 20 = 0 then .command (.crcByte (w.extractLsb' 0 8)) else .rsvNonzero)

/-- 40_crc.md R52: `CRC_READ` responds `zext_32(ACC)` and writes no state, or raises `E_UNSEEDED`. -/
def Obligations.CrcReadRespondsAcc : Prop :=
  (∀ s : State, s.accV = true →
    exec .crcRead s = .next { s with outbox := s.outbox ++ [⟨false, s.acc.setWidth 32⟩] }) ∧
  (∀ s : State, s.accV = false →
    exec .crcRead s =
      .next { s with err := if s.err = 0 then 3 else s.err, outbox := s.outbox ++ [⟨true, 3⟩] }) ∧
  (∀ w : Word, w.extractLsb' 28 4 = 0x3#4 →
    decode w = if w.extractLsb' 0 28 = 0 then .command .crcRead else .rsvNonzero)

/-- 41_trailer.md R60: `TRL_SET_NID` writes bytes 0 and 1, low byte first, and their valid bits. -/
def Obligations.TrlSetNidWritesLowPair : Prop :=
  (∀ (s : State) v, exec (.trlSetNid v) s =
    .next { s with
      tr := (s.tr.set 0 (v.extractLsb' 0 8)).set 1 (v.extractLsb' 8 8)
      trV := s.trV ||| 0b0011#4
      outbox := s.outbox ++ [⟨false, 0⟩] }) ∧
  (∀ w : Word, w.extractLsb' 28 4 = 0x4#4 →
    decode w = if w.extractLsb' 16 12 = 0 then .command (.trlSetNid (w.extractLsb' 0 16)) else .rsvNonzero)

/-- 41_trailer.md R61: `TRL_SET_CRC` writes bytes 2 and 3, low byte first, and their valid bits. -/
def Obligations.TrlSetCrcWritesHighPair : Prop :=
  (∀ (s : State) v, exec (.trlSetCrc v) s =
    .next { s with
      tr := (s.tr.set 2 (v.extractLsb' 0 8)).set 3 (v.extractLsb' 8 8)
      trV := s.trV ||| 0b1100#4
      outbox := s.outbox ++ [⟨false, 0⟩] }) ∧
  (∀ w : Word, w.extractLsb' 28 4 = 0x5#4 →
    decode w = if w.extractLsb' 16 12 = 0 then .command (.trlSetCrc (w.extractLsb' 0 16)) else .rsvNonzero)

/-- 41_trailer.md R62: `TRL_CRC_FROM_ACC` copies `ACC` into bytes 2 and 3, or raises `E_UNSEEDED` with the trailer
unchanged. -/
def Obligations.TrlCrcFromAccCopiesAcc : Prop :=
  (∀ s : State, s.accV = true →
    exec .trlCrcFromAcc s =
      .next { s with
        tr := (s.tr.set 2 (s.acc.extractLsb' 0 8)).set 3 (s.acc.extractLsb' 8 8)
        trV := s.trV ||| 0b1100#4
        outbox := s.outbox ++ [⟨false, 0⟩] }) ∧
  (∀ s : State, s.accV = false →
    exec .trlCrcFromAcc s =
      .next { s with err := if s.err = 0 then 3 else s.err, outbox := s.outbox ++ [⟨true, 3⟩] }) ∧
  (∀ w : Word, w.extractLsb' 28 4 = 0x6#4 →
    decode w = if w.extractLsb' 0 28 = 0 then .command .trlCrcFromAcc else .rsvNonzero)

/-- 41_trailer.md R63: `TRL_READ_BYTE idx` responds `zext_32(TR[idx])` if that byte is valid, whatever the others
are, and writes no state; else it raises `E_TRL_INCOMPLETE`. -/
def Obligations.TrlReadByteRespondsByte : Prop :=
  (∀ (s : State) (i : Fin 4), s.trV.getLsbD i = true →
    exec (.trlReadByte (BitVec.ofFin i)) s =
      .next { s with outbox := s.outbox ++ [⟨false, (s.tr[i]).setWidth 32⟩] }) ∧
  (∀ (s : State) (i : Fin 4), s.trV.getLsbD i = false →
    exec (.trlReadByte (BitVec.ofFin i)) s =
      .next { s with err := if s.err = 0 then 4 else s.err, outbox := s.outbox ++ [⟨true, 4⟩] }) ∧
  (∀ w : Word, w.extractLsb' 28 4 = 0x8#4 →
    decode w = if w.extractLsb' 26 2 = 0 ∧ w.extractLsb' 0 24 = 0
      then .command (.trlReadByte (w.extractLsb' 24 2)) else .rsvNonzero)

/-- 41_trailer.md R64: `TRL_WRITE_BYTE idx, imm8` writes `TR[idx]` and sets `TR_V[idx]`; the other three bytes and
their bits are unchanged. -/
def Obligations.TrlWriteByteWritesByte : Prop :=
  (∀ (s : State) (i : Fin 4) b, exec (.trlWriteByte (BitVec.ofFin i) b) s =
    .next { s with
      tr := s.tr.set i b
      trV := s.trV ||| BitVec.twoPow 4 i
      outbox := s.outbox ++ [⟨false, 0⟩] }) ∧
  (∀ w : Word, w.extractLsb' 28 4 = 0x7#4 →
    decode w = if w.extractLsb' 26 2 = 0 ∧ w.extractLsb' 8 16 = 0
      then .command (.trlWriteByte (w.extractLsb' 24 2) (w.extractLsb' 0 8)) else .rsvNonzero)

/-- 41_trailer.md R65: `TRL_READ_NID` responds `{TR[1], TR[0]}` if both are valid, else raises
`E_TRL_INCOMPLETE`. -/
def Obligations.TrlReadNidRespondsNid : Prop :=
  (∀ s : State, s.trV.extractLsb' 0 2 = 0b11#2 →
    exec .trlReadNid s =
      .next { s with outbox := s.outbox ++ [⟨false, (s.tr[1] ++ s.tr[0]).setWidth 32⟩] }) ∧
  (∀ s : State, s.trV.extractLsb' 0 2 ≠ 0b11#2 →
    exec .trlReadNid s =
      .next { s with err := if s.err = 0 then 4 else s.err, outbox := s.outbox ++ [⟨true, 4⟩] }) ∧
  (∀ w : Word, w.extractLsb' 28 4 = 0x9#4 →
    decode w = if w.extractLsb' 0 28 = 0 then .command .trlReadNid else .rsvNonzero)

/-- 41_trailer.md R66: `TRL_READ_CRC` responds `{TR[3], TR[2]}` if both are valid, else raises
`E_TRL_INCOMPLETE`. -/
def Obligations.TrlReadCrcRespondsCrc : Prop :=
  (∀ s : State, s.trV.extractLsb' 2 2 = 0b11#2 →
    exec .trlReadCrc s =
      .next { s with outbox := s.outbox ++ [⟨false, (s.tr[3] ++ s.tr[2]).setWidth 32⟩] }) ∧
  (∀ s : State, s.trV.extractLsb' 2 2 ≠ 0b11#2 →
    exec .trlReadCrc s =
      .next { s with err := if s.err = 0 then 4 else s.err, outbox := s.outbox ++ [⟨true, 4⟩] }) ∧
  (∀ w : Word, w.extractLsb' 28 4 = 0xA#4 →
    decode w = if w.extractLsb' 0 28 = 0 then .command .trlReadCrc else .rsvNonzero)

/-- 41_trailer.md R67: `TRL_DECODE` responds `{TR[3], TR[2], TR[1], TR[0]}` if all four are valid, else raises
`E_TRL_INCOMPLETE`. -/
def Obligations.TrlDecodeRespondsTrailer : Prop :=
  (∀ s : State, s.trV = 0b1111#4 →
    exec .trlDecode s =
      .next { s with outbox := s.outbox ++ [⟨false, s.tr[3] ++ s.tr[2] ++ s.tr[1] ++ s.tr[0]⟩] }) ∧
  (∀ s : State, s.trV ≠ 0b1111#4 →
    exec .trlDecode s =
      .next { s with err := if s.err = 0 then 4 else s.err, outbox := s.outbox ++ [⟨true, 4⟩] }) ∧
  (∀ w : Word, w.extractLsb' 28 4 = 0xD#4 →
    decode w = if w.extractLsb' 0 28 = 0 then .command .trlDecode else .rsvNonzero)

/-- 41_trailer.md R68: `TRL_CLEAR` clears `TR_V`, leaves `ACC`, `ACC_V` and `ERR` alone, and makes every trailer read
fault. Until a command writes byte `j`, its bit stays 0 from step to step, and a read that needs it faults. Nothing is
said of the bytes themselves. -/
def Obligations.TrlClearUnwritesTrailer : Prop :=
  (∀ s : State, ∃ t : State, exec .trlClear s = .next t ∧ t.trV = 0b0000#4 ∧
    t.acc = s.acc ∧ t.accV = s.accV ∧ t.err = s.err ∧ t.inbox = s.inbox ∧ t.outbox = s.outbox ++ [⟨false, 0⟩] ∧
    ∀ i, i = .trlReadNid ∨ i = .trlReadCrc ∨ i = .trlDecode ∨ (∃ j, i = .trlReadByte j) →
      exec i t = .next { t with err := if t.err = 0 then 4 else t.err, outbox := t.outbox ++ [⟨true, 4⟩] }) ∧
  (∀ (s t : State) (j : BitVec 2), s.trV.getLsbD j.toNat = false → step s = .next t →
    (∀ w rest i, s.inbox = .command w :: rest → decode w = .command i → writesTrailerByte i j = false) →
    t.trV.getLsbD j.toNat = false ∧ ∀ i, needsTrailerByte i j = true →
      exec i t = .next { t with err := if t.err = 0 then 4 else t.err, outbox := t.outbox ++ [⟨true, 4⟩] }) ∧
  (∀ w : Word, w.extractLsb' 28 4 = 0xB#4 →
    decode w = if w.extractLsb' 0 28 = 0 then .command .trlClear else .rsvNonzero)

/-- 42_control.md R72: `STAT_READ` responds `{ERR, 0b000, ACC_V, TR_V}` zero-extended, in every state, and writes no
state. -/
def Obligations.StatReadRespondsStatus : Prop :=
  (∀ s : State, exec .statRead s =
    .next { s with
      outbox := s.outbox ++ [⟨false, (s.err ++ 0b000#3 ++ BitVec.ofBool s.accV ++ s.trV).setWidth 32⟩] }) ∧
  (∀ w : Word, w.extractLsb' 28 4 = 0xC#4 →
    decode w = if w.extractLsb' 0 28 = 0 then .command .statRead else .rsvNonzero)

/-- 10_state.md R18: the fields of the word `STAT_READ` responds, reserved bits zero, and all of it zero after
reset. -/
def Obligations.StatusFieldsInPlace : Prop :=
  (∀ s : State, ∃ d, exec .statRead s = .next { s with outbox := s.outbox ++ [⟨false, d⟩] } ∧
    d.extractLsb' 0 4 = s.trV ∧ d.getLsbD 4 = s.accV ∧ d.extractLsb' 5 3 = 0 ∧
    d.extractLsb' 8 4 = s.err ∧ d.extractLsb' 12 20 = 0) ∧
  exec .statRead State.reset = .next { State.reset with outbox := [⟨false, 0⟩] }

/-! ### The error causes -/

/-- 60_exceptions.md R78: `E_UNSEEDED` is what `CRC_BYTE`, `CRC_READ` and `TRL_CRC_FROM_ACC` do while `ACC_V = 0`, and
no other command ever does; `ACC_V` is 0 at reset and stays 0 until a `CRC_SEED`. -/
def Obligations.UnseededFaultsExactly : Prop :=
  (∀ i (s : State),
    exec i s = .next { s with err := if s.err = 0 then 3 else s.err, outbox := s.outbox ++ [⟨true, 3⟩] } ↔
      ((∃ b, i = .crcByte b) ∨ i = .crcRead ∨ i = .trlCrcFromAcc) ∧ s.accV = false) ∧
  State.reset.accV = false ∧
  (∀ (s t : State), s.accV = false → step s = .next t →
    (∀ v rest, s.inbox ≠ .command (encode (.crcSeed v)) :: rest) → t.accV = false)

/-- 60_exceptions.md R79: `E_TRL_INCOMPLETE` is what the four trailer reads do while a byte they need is not valid,
and no other command ever does. -/
def Obligations.TrlIncompleteFaultsExactly : Prop :=
  ∀ i (s : State),
    exec i s = .next { s with err := if s.err = 0 then 4 else s.err, outbox := s.outbox ++ [⟨true, 4⟩] } ↔
      (∃ j : BitVec 2, i = .trlReadByte j ∧ s.trV.getLsbD j.toNat = false) ∨
      (i = .trlReadNid ∧ (s.trV.getLsbD 0 = false ∨ s.trV.getLsbD 1 = false)) ∨
      (i = .trlReadCrc ∧ (s.trV.getLsbD 2 = false ∨ s.trV.getLsbD 3 = false)) ∨
      (i = .trlDecode ∧
        (s.trV.getLsbD 0 = false ∨ s.trV.getLsbD 1 = false ∨ s.trV.getLsbD 2 = false ∨ s.trV.getLsbD 3 = false))

/-- 30_encoding.md R42, 60_exceptions.md R76: a word with opcode 0xE or 0xF, whatever its other bits, raises
`E_ILLEGAL_OP` and does nothing else. -/
def Obligations.ReservedOpcodeFaults : Prop :=
  ∀ (s : State) (w : Word) rest, s.inbox = .command w :: rest →
    w.extractLsb' 28 4 = 0xE#4 ∨ w.extractLsb' 28 4 = 0xF#4 →
    step s = .next { s with
      inbox := rest, err := if s.err = 0 then 1 else s.err, outbox := s.outbox ++ [⟨true, 1⟩] }

/-- 60_exceptions.md R77, 30_encoding.md R43: a word with an opcode up to 0xD that its opcode's row does not select
raises `E_RSV_NONZERO` and does nothing else. -/
def Obligations.ReservedBitsFault : Prop :=
  ∀ (s : State) (w : Word) rest r, s.inbox = .command w :: rest →
    r ∈ opcodeMap → w.extractLsb' 28 4 = r.pattern.extractLsb' 28 4 → w &&& r.mask ≠ r.pattern →
    step s = .next { s with
      inbox := rest, err := if s.err = 0 then 2 else s.err, outbox := s.outbox ++ [⟨true, 2⟩] }

/-- 60_exceptions.md R80: the checks of a command word, in order; the first that fails gives the response's code, and
if none fails the command succeeds. -/
def Obligations.ChecksRunInOrder : Prop :=
  ∀ (s : State) (w : Word) rest, s.inbox = .command w :: rest →
    ∃ (t : State) (r : Response), step s = .next t ∧ t.outbox = s.outbox ++ [r] ∧
      if 0xE ≤ (w.extractLsb' 28 4).toNat then r = ⟨true, 1⟩
      else if ∀ row ∈ opcodeMap, w &&& row.mask ≠ row.pattern then r = ⟨true, 2⟩
      else if (w.extractLsb' 28 4 = 0x2#4 ∨ w.extractLsb' 28 4 = 0x3#4 ∨ w.extractLsb' 28 4 = 0x6#4) ∧
          s.accV = false then r = ⟨true, 3⟩
      else if (w.extractLsb' 28 4 = 0x8#4 ∧ s.trV.getLsbD (w.extractLsb' 24 2).toNat = false) ∨
          (w.extractLsb' 28 4 = 0x9#4 ∧ s.trV.extractLsb' 0 2 ≠ 0b11#2) ∨
          (w.extractLsb' 28 4 = 0xA#4 ∧ s.trV.extractLsb' 2 2 ≠ 0b11#2) ∨
          (w.extractLsb' 28 4 = 0xD#4 ∧ s.trV ≠ 0b1111#4) then r = ⟨true, 4⟩
      else r.err = false

/-- 60_exceptions.md R81: the step on any command word answers a next state; if the response is an error, that state
differs only in the event taken, the response, and `ERR`, which takes the response's code if it was 0. The block then
takes the next command as usual: it is executed on that state, not refused. -/
def Obligations.FaultChangesOnlyErr : Prop :=
  ∀ (s : State) (w : Word) rest, s.inbox = .command w :: rest →
    ∃ (t : State) (r : Response), step s = .next t ∧ t.outbox = s.outbox ++ [r] ∧
      (r.err = true → t = { s with
        inbox := rest
        err := if s.err = 0 then r.data.setWidth 4 else s.err
        outbox := s.outbox ++ [⟨true, (r.data.setWidth 4).setWidth 32⟩] }) ∧
      ∀ v i rest', rest = .command v :: rest' → decode v = .command i →
        step t = exec i { t with inbox := rest' }

/-- 30_encoding.md R45, 60_exceptions.md R75: a command word gets exactly one response; an error carries one of the
codes 1 to 4, and success of a command that is no read carries 0. -/
def Obligations.OneResponsePerCommandWord : Prop :=
  ∀ (s : State) (w : Word) rest, s.inbox = .command w :: rest →
    ∃ (t : State) (r : Response), step s = .next t ∧ t.inbox = rest ∧ t.outbox = s.outbox ++ [r] ∧
      (r.err = true → r.data = 1 ∨ r.data = 2 ∨ r.data = 3 ∨ r.data = 4) ∧
      (r.err = false → ∃ i, decode w = .command i ∧ (isReadCommand i = false → r.data = 0))

/-! ### Encoding -/

/-- 30_encoding.md R38 to R41: the word of every command, with every operand, decodes to that command. -/
def Obligations.DecodeOfEncode : Prop := ∀ i, decode (encode i) = .command i

/-- 30_encoding.md R38 to R43: a word that decodes to a command is that command's word, so no bit of it is ignored. -/
def Obligations.EncodeOfDecode : Prop := ∀ w i, decode w = .command i → encode i = w

/-- 30_encoding.md R41: the opcode map, and a word selects a command exactly when `(word & mask) == match` for that
command's row; at most one row matches any word. -/
def Obligations.OpcodeMapSelects : Prop :=
  opcodeMap =
    [⟨"NOP", 0x00000000, 0xFFFFFFFF⟩, ⟨"CRC_SEED", 0x10000000, 0xFFFF0000⟩,
     ⟨"CRC_BYTE", 0x20000000, 0xFFFFFF00⟩,
     ⟨"CRC_READ", 0x30000000, 0xFFFFFFFF⟩, ⟨"TRL_SET_NID", 0x40000000, 0xFFFF0000⟩,
     ⟨"TRL_SET_CRC", 0x50000000, 0xFFFF0000⟩, ⟨"TRL_CRC_FROM_ACC", 0x60000000, 0xFFFFFFFF⟩,
     ⟨"TRL_WRITE_BYTE", 0x70000000, 0xFCFFFF00⟩, ⟨"TRL_READ_BYTE", 0x80000000, 0xFCFFFFFF⟩,
     ⟨"TRL_READ_NID", 0x90000000, 0xFFFFFFFF⟩, ⟨"TRL_READ_CRC", 0xA0000000, 0xFFFFFFFF⟩,
     ⟨"TRL_CLEAR", 0xB0000000, 0xFFFFFFFF⟩, ⟨"STAT_READ", 0xC0000000, 0xFFFFFFFF⟩,
     ⟨"TRL_DECODE", 0xD0000000, 0xFFFFFFFF⟩] ∧
  (∀ (w : Word) r, r ∈ opcodeMap → (w &&& r.mask = r.pattern ↔ ∃ i, decode w = .command i ∧ i.row = r)) ∧
  (∀ (w : Word) r r', r ∈ opcodeMap → r' ∈ opcodeMap →
    w &&& r.mask = r.pattern → w &&& r'.mask = r'.pattern → r = r')

/-- 30_encoding.md R44: every word is exactly one of a command of R41, an `E_RSV_NONZERO` word, an `E_ILLEGAL_OP`
word, and `NOP` has exactly one encoding. -/
def Obligations.EveryWordHasOneMeaning : Prop :=
  (∀ w : Word, decode w = .illegalOp ↔ 0xE ≤ (w.extractLsb' 28 4).toNat) ∧
  (∀ w : Word, decode w = .rsvNonzero ↔
    (w.extractLsb' 28 4).toNat < 0xE ∧ ∀ r ∈ opcodeMap, w &&& r.mask ≠ r.pattern) ∧
  (∀ w : Word, (∃ i, decode w = .command i) ↔ ∃ r ∈ opcodeMap, w &&& r.mask = r.pattern) ∧
  (∀ w : Word, decode w = .command .nop ↔ w = 0)

/-- 30_encoding.md R38 to R41, 95_test_vectors.md section 4: one word of each family, its fields written out. -/
def Obligations.WordsOfTheSpecDecode : Prop :=
  decode 0b0001_00_00_00000000_1111111111111111#32 = .command (.crcSeed 0xFFFF) ∧
  decode 0b0010_00_00_00000000_00000000_01000001#32 = .command (.crcByte 0x41) ∧
  decode 0b0111_00_11_00000000_00000000_11111111#32 = .command (.trlWriteByte 3 0xFF) ∧
  decode 0b1101_00_00_00000000_0000000000000000#32 = .command .trlDecode ∧
  decode 0b1100_00_00_00000000_0000000000000000#32 = .command .statRead

/-- 30_encoding.md R46: the assembler's word of a line, as R46's column "encoding" computes it; a line with an operand
out of range has no word. -/
def Obligations.AssemblerWords : Prop :=
  ∀ c w, assemble c = some w ↔
    (match c with
      | .crcSeed v | .trlSetNid v | .trlSetCrc v => v ≤ 0xFFFF
      | .crcByte b => b ≤ 0xFF
      | .trlWriteByte i b => i ≤ 3 ∧ b ≤ 0xFF
      | .trlReadByte i => i ≤ 3
      | _ => True) ∧
    w.toNat = match c with
      | .nop => 0x00000000
      | .crcSeed v => 0x10000000 + v
      | .crcByte b => 0x20000000 + b
      | .crcRead => 0x30000000
      | .trlSetNid v => 0x40000000 + v
      | .trlSetCrc v => 0x50000000 + v
      | .trlCrcFromAcc => 0x60000000
      | .trlWriteByte i b => 0x70000000 + i * 0x01000000 + b
      | .trlReadByte i => 0x80000000 + i * 0x01000000
      | .trlReadNid => 0x90000000
      | .trlReadCrc => 0xA0000000
      | .trlClear => 0xB0000000
      | .statRead => 0xC0000000
      | .trlDecode => 0xD0000000

/-! ### The step and the port -/

/-- 20_memory.md R31: when the oldest event is a word that decodes to a command, the step is that command executed on
the state with the event taken. -/
def Obligations.StepRunsDecodedCommand : Prop :=
  ∀ (s : State) (w : Word) i rest, s.inbox = .command w :: rest → decode w = .command i →
    step s = exec i { s with inbox := rest }

/-- 10_state.md R9: with no event waiting a step changes nothing. That it answers a next state at all is the model's
choice (log entry 1, DESIGN CHOICE). -/
def Obligations.NoEventNoChange : Prop := ∀ s : State, s.inbox = [] → step s = .next s

/-- 60_exceptions.md R81, 70_reset_and_hazards.md R96: no state stops the block. (With no event waiting the next state
is the model's choice, log entry 1.) -/
def Obligations.BlockNeverStops : Prop := ∀ s : State, ∃ t : State, step s = .next t

/-- 20_memory.md R35: a command sees no later one, and a sequence of command words is executed in order with one
response each, the words behind it untouched; `ERR` at the end is as R17 and R82 have it. That the events behind a reset
stay waiting, as the first clause says where `e` is a reset, is the model's choice (log entry 6, DESIGN CHOICE), not R35. -/
def Obligations.CommandsRunInOrder : Prop :=
  (∀ (s : State) e rest, ∃ t : State, step { s with inbox := [e] } = .next t ∧ t.inbox = [] ∧
    step { s with inbox := e :: rest } = .next { t with inbox := rest }) ∧
  (∀ (s : State) (ws vs : List Word), s.inbox = [] →
    ∃ (t : State) (rs : List Response),
      Host.Core.run Sys2Proof.core ws.length (s.issueWords ws) = .next t ∧ t.inbox = [] ∧
      rs.length = ws.length ∧ t.outbox = s.outbox ++ rs ∧
      t.err = (if s.err = 0 then firstError rs else s.err) ∧
      Host.Core.run Sys2Proof.core ws.length (s.issueWords (ws ++ vs)) = .next (t.issueWords vs))

/-- 70_reset_and_hazards.md R87, R88: reset, asserted between commands or during one, clears `ACC_V`, `TR_V` and
`ERR`, gives no response, and the next command sees the reset state up to registers that hold no value; no other
event clears `ERR`. What the host has issued for after the reset stays issued: the model's choice, log entry 6. -/
def Obligations.ResetClearsState : Prop :=
  (∀ (s : State) rest, s.inbox = .reset :: rest ∨ (∃ w, s.inbox = .resetDuring w :: rest) →
    ∃ t : State, step s = .next t ∧ t.accV = false ∧ t.trV = 0b0000#4 ∧ t.err = 0x0#4 ∧
      t.inbox = rest ∧ t.outbox = s.outbox ∧
      SameValues t { State.reset with inbox := rest, outbox := s.outbox }) ∧
  (∀ (s t : State), step s = .next t → s.err ≠ 0x0#4 → t.err = 0x0#4 →
    ∃ rest, s.inbox = .reset :: rest ∨ ∃ w, s.inbox = .resetDuring w :: rest)

/-- 10_state.md R23: what the spec states of the state after reset, and that it meets the invariants `CodesListed` and
`ErrIsFirstSince []`. -/
def Obligations.ResetStateLegal : Prop :=
  State.reset.accV = false ∧ State.reset.trV = 0b0000#4 ∧ State.reset.err = 0x0#4 ∧ CodesListed State.reset ∧
  ErrIsFirstSince [] State.reset

/-! ### Who writes what -/

/-- 10_state.md R12: `ACC` after a step that is no reset is as `CRC_SEED` and `CRC_BYTE` leave it, and the commands
that do not read it answer the same whatever it holds. -/
def Obligations.AccWritersAndReaders : Prop :=
  (∀ (s t : State) w rest, s.inbox = .command w :: rest → step s = .next t →
    (∀ v, decode w = .command (.crcSeed v) → t.acc = v) ∧
    (∀ b, decode w = .command (.crcByte b) → t.acc = if s.accV then crcStep s.acc b else s.acc) ∧
    ((∀ v, decode w ≠ .command (.crcSeed v)) → (∀ b, decode w ≠ .command (.crcByte b)) → t.acc = s.acc)) ∧
  (∀ (s t : State), s.inbox = [] → step s = .next t → t.acc = s.acc) ∧
  (∀ i (s : State) a, i ≠ .crcRead → i ≠ .trlCrcFromAcc → (∀ b, i ≠ .crcByte b) →
    ∃ t u : State, exec i s = .next t ∧ exec i { s with acc := a } = .next u ∧ u = { t with acc := u.acc })

/-- 10_state.md R13: `ACC_V` is 0 at reset, `CRC_SEED` sets it, nothing else writes it but reset, which clears it, and
while it is 0 the commands that read `ACC` raise `E_UNSEEDED`. -/
def Obligations.AccVWriters : Prop :=
  State.reset.accV = false ∧
  (∀ (s t : State) w rest, s.inbox = .command w :: rest → step s = .next t →
    (∀ v, decode w = .command (.crcSeed v) → t.accV = true) ∧
    ((∀ v, decode w ≠ .command (.crcSeed v)) → t.accV = s.accV)) ∧
  (∀ (s : State) rest, s.inbox = .reset :: rest ∨ (∃ w, s.inbox = .resetDuring w :: rest) →
    ∃ t : State, step s = .next t ∧ t.accV = false) ∧
  (∀ (s t : State), s.inbox = [] → step s = .next t → t.accV = s.accV) ∧
  (∀ i (s : State), (∃ b, i = .crcByte b) ∨ i = .crcRead ∨ i = .trlCrcFromAcc → s.accV = false →
    exec i s = .next { s with err := if s.err = 0 then 3 else s.err, outbox := s.outbox ++ [⟨true, 3⟩] })

/-- 10_state.md R16: `TR_V` is 0 at reset; which bits each command that writes it sets or clears, that the faulting
`TRL_CRC_FROM_ACC`, every other command and every rejected word leave it, and that reset clears it; and a command that
reads a trailer byte whose bit is 0 raises `E_TRL_INCOMPLETE`. -/
def Obligations.TrVWriters : Prop :=
  State.reset.trV = 0b0000#4 ∧
  (∀ i (s t : State), exec i s = .next t →
    t.trV = match i with
      | .trlSetNid _ => s.trV ||| 0b0011#4
      | .trlSetCrc _ => s.trV ||| 0b1100#4
      | .trlCrcFromAcc => if s.accV then s.trV ||| 0b1100#4 else s.trV
      | .trlWriteByte j _ => s.trV ||| BitVec.twoPow 4 j.toNat
      | .trlClear => 0b0000#4
      | _ => s.trV) ∧
  (∀ (s t : State) w rest, s.inbox = .command w :: rest → step s = .next t → (∀ i, decode w ≠ .command i) →
    t.trV = s.trV) ∧
  (∀ (s : State) rest, s.inbox = .reset :: rest ∨ (∃ w, s.inbox = .resetDuring w :: rest) →
    ∃ t : State, step s = .next t ∧ t.trV = 0b0000#4) ∧
  (∀ i (j : BitVec 2) (s : State), needsTrailerByte i j = true → s.trV.getLsbD j.toNat = false →
    exec i s = .next { s with err := if s.err = 0 then 4 else s.err, outbox := s.outbox ++ [⟨true, 4⟩] })

/-- 10_state.md R17: `ERR` is 0 at reset; a fault while it is 0 gives it that fault's code; a fault while it is not 0,
and a success, leave it alone; only reset clears it. -/
def Obligations.FirstErrorIsKept : Prop :=
  State.reset.err = 0x0#4 ∧
  (∀ (s t : State) w rest, s.inbox = .command w :: rest → step s = .next t →
    (s.err ≠ 0x0#4 → t.err = s.err) ∧
    (∀ c, t.outbox = s.outbox ++ [⟨true, c⟩] → s.err = 0x0#4 → t.err = c.setWidth 4 ∧ t.err ≠ 0x0#4) ∧
    (∀ v, t.outbox = s.outbox ++ [⟨false, v⟩] → t.err = s.err)) ∧
  (∀ (s : State) rest, s.inbox = .reset :: rest ∨ (∃ w, s.inbox = .resetDuring w :: rest) →
    ∃ t : State, step s = .next t ∧ t.err = 0x0#4) ∧
  (∀ (s t : State), s.inbox = [] → step s = .next t → t.err = s.err)

/-- 20_memory.md R32: a read command that succeeds changes no register, one that faults changes only `ERR`, and issued
twice with nothing between it gives the same response. -/
def Obligations.ReadsAreIdempotent : Prop :=
  ∀ i (s : State),
    i = .crcRead ∨ (∃ j, i = .trlReadByte j) ∨ i = .trlReadNid ∨ i = .trlReadCrc ∨ i = .trlDecode ∨ i = .statRead →
    ∃ (t : State) (r : Response), exec i s = .next t ∧ t.outbox = s.outbox ++ [r] ∧
      (r.err = false → t = { s with outbox := t.outbox }) ∧
      (r.err = true → t = { s with err := t.err, outbox := t.outbox }) ∧
      ∃ u : State, exec i t = .next u ∧ u.outbox = t.outbox ++ [r] ∧ u.err = t.err

/-! ### The CRC function and its commands -/

/-- 40_crc.md R55: chaining. -/
def Obligations.CrcChains : Prop := ∀ bs cs s, crc16 (bs ++ cs) s = crc16 cs (crc16 bs s)

/-- 40_crc.md R56: linearity, the zero message, and the effect of a bit error. -/
def Obligations.CrcIsLinear : Prop :=
  (∀ (as bs : List (BitVec 8)) s₁ s₂, as.length = bs.length →
    crc16 (List.zipWith (· ^^^ ·) as bs) (s₁ ^^^ s₂) = crc16 as s₁ ^^^ crc16 bs s₂) ∧
  (∀ n, crc16 (List.replicate n 0) 0 = 0) ∧
  (∀ (as es : List (BitVec 8)) s, as.length = es.length →
    crc16 (List.zipWith (· ^^^ ·) as es) s = crc16 as s ^^^ crc16 es 0)

/-- 40_crc.md R57: a message with one bit flipped has another CRC, for every length, seed and bit. -/
def Obligations.SingleBitErrorChangesCrc : Prop :=
  ∀ (bs : List (BitVec 8)) (seed : BitVec 16) (k j : Nat) (h : k < bs.length), j < 8 →
    crc16 (bs.set k (bs[k] ^^^ BitVec.twoPow 8 j)) seed ≠ crc16 bs seed

/-- 40_crc.md R54: `crc_step(acc, b)` is the remainder of `acc * x^8 + b * x^16` modulo
`G(x) = x^16 + x^12 + x^5 + 1` over GF(2), bit `i` the coefficient of `x^i`: it differs from that polynomial by a
multiple of `G`, and has degree below 16. The spec marks the polynomial form as general knowledge. -/
def Obligations.CrcStepIsPolynomialRemainder : Prop :=
  ∀ (acc : BitVec 16) (b : BitVec 8), ∃ q : Polynomial (ZMod 2),
    (∑ i ∈ Finset.range 16, if acc.getLsbD i then (Polynomial.X : Polynomial (ZMod 2)) ^ (i + 8) else 0) +
        (∑ i ∈ Finset.range 8, if b.getLsbD i then (Polynomial.X : Polynomial (ZMod 2)) ^ (i + 16) else 0) =
      q * (Polynomial.X ^ 16 + Polynomial.X ^ 12 + Polynomial.X ^ 5 + 1) +
        ∑ i ∈ Finset.range 16, if (crcStep acc b).getLsbD i then (Polynomial.X : Polynomial (ZMod 2)) ^ i else 0

/-- 40_crc.md R53: after `CRC_SEED s`, then any words of which none is a `CRC_SEED`, `ACC` is `crc16` of the bytes fed
by the `CRC_BYTE` words among them, and `CRC_READ` responds it; the other words, faulting ones too, do not matter.
`ERR` at the end is that of the first error response, or what it was (60_exceptions.md R82). -/
def Obligations.CommandSequenceComputesCrc : Prop :=
  ∀ (s : State) (seed : BitVec 16) (ws : List Word), s.inbox = [] →
    (∀ w ∈ ws, ∀ v, decode w ≠ .command (.crcSeed v)) →
    ∃ (t : State) (rs : List Response), Host.Core.run Sys2Proof.core (ws.length + 2)
        (s.issueWords (encode (.crcSeed seed) :: ws ++ [encode .crcRead])) = .next t ∧
      t.acc = crc16 (messageBytes ws) seed ∧ t.accV = true ∧ rs.length = ws.length + 1 ∧
      t.err = (if s.err = 0 then firstError rs else s.err) ∧
      t.outbox = s.outbox ++ rs ++ [⟨false, (crc16 (messageBytes ws) seed).setWidth 32⟩]

/-- 70_reset_and_hazards.md R90: a second message fed without a new seed goes on from the first, with no error. -/
def Obligations.CarriedOverAccumulator : Prop :=
  ∀ (s : State) (first second : List (BitVec 8)), s.accV = true →
    ∃ t : State, execAll ((first ++ second).map .crcByte) s = .next t ∧
      t.acc = crc16 second (crc16 first s.acc) ∧ t.accV = true ∧ t.err = s.err ∧
      t.outbox = s.outbox ++ List.replicate (first.length + second.length) ⟨false, 0⟩

/-- 70_reset_and_hazards.md R92: payload bytes fed after `TRL_CRC_FROM_ACC` are not in the trailer's CRC. -/
def Obligations.TrailerCrcIsSnapshot : Prop :=
  ∀ (s : State) (bytes : List (BitVec 8)), s.accV = true →
    ∃ (t : State) (rs : List Response),
      execAll (.trlCrcFromAcc :: bytes.map .crcByte ++ [.trlReadCrc]) s = .next t ∧
      t.acc = crc16 bytes s.acc ∧ t.err = s.err ∧ t.outbox = s.outbox ++ rs ++ [⟨false, s.acc.setWidth 32⟩]

/-! ### The trailer codec -/

/-- 20_memory.md R28: the byte views and the field views of the trailer agree: a field written is read as its bytes,
bytes written one at a time, in either order, are read as the field, and a field of which one byte only is valid
faults. -/
def Obligations.MixedWidthViewsAgree : Prop :=
  (∀ (s : State) (v : BitVec 16), ∃ t : State, exec (.trlSetNid v) s = .next t ∧ t.err = s.err ∧
    exec (.trlReadByte 0) t = .next { t with outbox := t.outbox ++ [⟨false, (v.extractLsb' 0 8).setWidth 32⟩] } ∧
    exec (.trlReadByte 1) t = .next { t with outbox := t.outbox ++ [⟨false, (v.extractLsb' 8 8).setWidth 32⟩] }) ∧
  (∀ (s : State) (v : BitVec 16), ∃ t : State, exec (.trlSetCrc v) s = .next t ∧ t.err = s.err ∧
    exec (.trlReadByte 2) t = .next { t with outbox := t.outbox ++ [⟨false, (v.extractLsb' 0 8).setWidth 32⟩] } ∧
    exec (.trlReadByte 3) t = .next { t with outbox := t.outbox ++ [⟨false, (v.extractLsb' 8 8).setWidth 32⟩] }) ∧
  (∀ (s : State) (lo hi : BitVec 8) is,
    is = [.trlWriteByte 0 lo, .trlWriteByte 1 hi] ∨ is = [.trlWriteByte 1 hi, .trlWriteByte 0 lo] →
    ∃ t : State, execAll is s = .next t ∧ t.err = s.err ∧
      exec .trlReadNid t = .next { t with outbox := t.outbox ++ [⟨false, (hi ++ lo).setWidth 32⟩] }) ∧
  (∀ (s : State) (lo hi : BitVec 8) is,
    is = [.trlWriteByte 2 lo, .trlWriteByte 3 hi] ∨ is = [.trlWriteByte 3 hi, .trlWriteByte 2 lo] →
    ∃ t : State, execAll is s = .next t ∧ t.err = s.err ∧
      exec .trlReadCrc t = .next { t with outbox := t.outbox ++ [⟨false, (hi ++ lo).setWidth 32⟩] }) ∧
  (∀ s : State, s.trV.getLsbD 0 ≠ s.trV.getLsbD 1 → exec .trlReadNid s =
    .next { s with err := if s.err = 0 then 4 else s.err, outbox := s.outbox ++ [⟨true, 4⟩] }) ∧
  (∀ s : State, s.trV.getLsbD 2 ≠ s.trV.getLsbD 3 → exec .trlReadCrc s =
    .next { s with err := if s.err = 0 then 4 else s.err, outbox := s.outbox ++ [⟨true, 4⟩] })

/-- 41_trailer.md R69: the serializer and the deserializer are inverse, as functions and on the block. -/
def Obligations.TrailerRoundTrips : Prop :=
  (∀ nid crc, decodeTrailer (encodeTrailer nid crc) = ⟨nid, crc⟩) ∧
  (∀ t, encodeTrailer (decodeTrailer t).networkId (decodeTrailer t).payloadCrc = t) ∧
  (∀ (s : State) (n c : BitVec 16), ∃ t : State, execAll [.trlSetNid n, .trlSetCrc c, .trlDecode] s = .next t ∧
    t.err = s.err ∧ t.outbox = s.outbox ++ [⟨false, 0⟩, ⟨false, 0⟩, ⟨false, c ++ n⟩]) ∧
  (∀ (s : State) (t₀ t₁ t₂ t₃ : BitVec 8), ∃ t : State,
    execAll [.trlClear, .trlWriteByte 0 t₀, .trlWriteByte 1 t₁, .trlWriteByte 2 t₂, .trlWriteByte 3 t₃] s = .next t ∧
    t.err = s.err ∧
    exec (.trlReadByte 0) t = .next { t with outbox := t.outbox ++ [⟨false, t₀.setWidth 32⟩] } ∧
    exec (.trlReadByte 1) t = .next { t with outbox := t.outbox ++ [⟨false, t₁.setWidth 32⟩] } ∧
    exec (.trlReadByte 2) t = .next { t with outbox := t.outbox ++ [⟨false, t₂.setWidth 32⟩] } ∧
    exec (.trlReadByte 3) t = .next { t with outbox := t.outbox ++ [⟨false, t₃.setWidth 32⟩] })

/-- 41_trailer.md R70: after a successful decode the four byte reads respond the bytes of the decoded word in wire
order, and two trailers decode to the same word exactly when their bytes are the same. -/
def Obligations.AckEchoesTrailer : Prop :=
  (∀ s : State, s.trV = 0b1111#4 → ∃ d,
    execAll [.trlDecode, .trlReadByte 0, .trlReadByte 1, .trlReadByte 2, .trlReadByte 3] s =
      .next { s with outbox := s.outbox ++
        [⟨false, d⟩, ⟨false, (d.extractLsb' 0 8).setWidth 32⟩, ⟨false, (d.extractLsb' 8 8).setWidth 32⟩,
         ⟨false, (d.extractLsb' 16 8).setWidth 32⟩, ⟨false, (d.extractLsb' 24 8).setWidth 32⟩] }) ∧
  (∀ (s t : State), s.trV = 0b1111#4 → t.trV = 0b1111#4 →
    ∃ d e, exec .trlDecode s = .next { s with outbox := s.outbox ++ [⟨false, d⟩] } ∧
      exec .trlDecode t = .next { t with outbox := t.outbox ++ [⟨false, e⟩] } ∧ (d = e ↔ s.tr = t.tr))

/-- 70_reset_and_hazards.md R91: over an earlier whole trailer, one byte written and the trailer decoded gives a mix
with no fault, and `TRL_SET_NID` alone leaves the earlier CRC bytes valid. -/
def Obligations.StaleTrailerBytesMix : Prop :=
  (∀ (s : State) (b : BitVec 8), s.trV = 0b1111#4 →
    ∃ t : State, execAll [.trlWriteByte 0 b, .trlDecode] s = .next t ∧
    t.err = s.err ∧ t.outbox = s.outbox ++ [⟨false, 0⟩, ⟨false, s.tr[3] ++ s.tr[2] ++ s.tr[1] ++ b⟩]) ∧
  (∀ (s : State) (n : BitVec 16), s.trV.extractLsb' 2 2 = 0b11#2 →
    ∃ t : State, execAll [.trlSetNid n, .trlReadCrc] s = .next t ∧
    t.err = s.err ∧ t.outbox = s.outbox ++ [⟨false, 0⟩, ⟨false, (s.tr[3] ++ s.tr[2]).setWidth 32⟩])

/-- 30_encoding.md R47: each pseudo-command, issued to an idle block, realises its operation of the source: `CRC16`
responds `crc16`, `ENCODE_TRAILER` (with either source of the CRC) then `EMIT_TRAILER` respond the bytes of
`encode_trailer`, and `DECODE_TRAILER` responds the fields of `decode_trailer`, whatever the block held before. -/
def Obligations.PseudoCommandsRealiseOperations : Prop :=
  (∀ (s : State) seed bytes, s.inbox = [] →
    ∃ t : State, Host.Core.run Sys2Proof.core (bytes.length + 2)
        (s.issueCommands (expandPseudo (.crc16 seed bytes))) = .next t ∧
      t.err = s.err ∧ t.outbox = s.outbox ++ List.replicate (bytes.length + 1) ⟨false, 0⟩ ++
        [⟨false, (crc16 bytes seed).setWidth 32⟩]) ∧
  (∀ (s : State) nid crc, s.inbox = [] →
    ∃ t : State, Host.Core.run Sys2Proof.core 6
        (s.issueCommands (expandPseudo (.encodeTrailer nid crc) ++ expandPseudo .emitTrailer)) = .next t ∧
      t.err = s.err ∧ t.outbox = s.outbox ++ [⟨false, 0⟩, ⟨false, 0⟩] ++
        (encodeTrailer nid crc).toList.map fun b => ⟨false, b.setWidth 32⟩) ∧
  (∀ (s : State) nid, s.inbox = [] → s.accV = true →
    ∃ t : State, Host.Core.run Sys2Proof.core 6
        (s.issueCommands (expandPseudo (.encodeTrailerAcc nid) ++ expandPseudo .emitTrailer)) = .next t ∧
      t.err = s.err ∧ t.outbox = s.outbox ++ [⟨false, 0⟩, ⟨false, 0⟩] ++
        (encodeTrailer nid s.acc).toList.map fun b => ⟨false, b.setWidth 32⟩) ∧
  (∀ (s : State) (t₀ t₁ t₂ t₃ : BitVec 8), s.inbox = [] →
    ∃ (t : State) (d : Word), Host.Core.run Sys2Proof.core 6
        (s.issueCommands (expandPseudo (.decodeTrailer t₀ t₁ t₂ t₃))) = .next t ∧
      t.err = s.err ∧ t.outbox = s.outbox ++ List.replicate 5 ⟨false, 0⟩ ++ [⟨false, d⟩] ∧
      d.extractLsb' 0 16 = (decodeTrailer #v[t₀, t₁, t₂, t₃]).networkId ∧
      d.extractLsb' 16 16 = (decodeTrailer #v[t₀, t₁, t₂, t₃]).payloadCrc)

/-- 41_trailer.md R58, R69, 40_crc.md R53: the frame on the block. The sender's sequence of commands responds the last
four bytes of the frame; the receiver's, on those four bytes and the payload, responds the network ID and the CRC that
the frame carries, which is the CRC recomputed over the payload, or 0x0000 under `no_crc`. -/
def Obligations.FrameIsBuiltAndChecked : Prop :=
  (∀ (s : State) nid payload, s.inbox = [] →
    ∃ (t : State) (rs : List Response) (tail : List (BitVec 8)), Host.Core.run Sys2Proof.core (payload.length + 7)
        (s.issueCommands ([.crcSeed Config.protocolSeed] ++ payload.map .crcByte ++
          expandPseudo (.encodeTrailerAcc nid) ++ expandPseudo .emitTrailer)) = .next t ∧
      t.err = s.err ∧ rs.length = payload.length + 3 ∧ t.outbox = s.outbox ++ rs ++ tail.map (fun b => ⟨false, b.setWidth 32⟩) ∧
      frameBytes false nid payload = payload ++ tail) ∧
  (∀ (s : State) noCrc nid payload t₀ t₁ t₂ t₃, s.inbox = [] →
    frameBytes noCrc nid payload = payload ++ [t₀, t₁, t₂, t₃] →
    ∃ (t : State) (d c : Word), Host.Core.run Sys2Proof.core (payload.length + 8)
        (s.issueCommands (expandPseudo (.decodeTrailer t₀ t₁ t₂ t₃) ++
          expandPseudo (.crc16 Config.protocolSeed payload))) = .next t ∧
      t.err = s.err ∧ t.outbox = s.outbox ++ List.replicate 5 ⟨false, 0⟩ ++ [⟨false, d⟩] ++
        List.replicate (payload.length + 1) ⟨false, 0⟩ ++ [⟨false, c⟩] ∧
      d.extractLsb' 0 16 = nid ∧ d.extractLsb' 16 16 = if noCrc then 0x0000#16 else c.setWidth 16)

/-! ### Whole-machine rules -/

/-- 60_exceptions.md R75, 93_implementation_defined.md I12: every step keeps the codes listed: `ERR` never holds a
reserved code and no error response carries one. -/
def Obligations.StepKeepsCodesListed : Prop := ∀ (s t : State), CodesListed s → step s = .next t → CodesListed t

/-- 10_state.md R17, 60_exceptions.md R82: every step keeps `ERR` the code of the first error response since reset.
`base` is the responses returned up to the last reset: a step that takes no reset leaves it, and after a reset it is
all the responses returned so far. -/
def Obligations.StepKeepsErrFirstSinceReset : Prop :=
  ∀ (base : List Response) (s t : State), ErrIsFirstSince base s → step s = .next t →
    ((∀ rest, s.inbox ≠ .reset :: rest) → (∀ w rest, s.inbox ≠ .resetDuring w :: rest) → ErrIsFirstSince base t) ∧
    (∀ rest, s.inbox = .reset :: rest ∨ (∃ w, s.inbox = .resetDuring w :: rest) → ErrIsFirstSince s.outbox t)

/-- 10_state.md R17, 60_exceptions.md R82: over any sequence of command words from a state with no fault recorded,
`ERR` at the end is the code of the first error response, and it is 0 exactly when every response is a success. -/
def Obligations.ErrRecordsFirstErrorOfRun : Prop :=
  ∀ (s : State) (ws : List Word), NoFaultRecorded s → s.inbox = [] →
    ∃ (t : State) (rs : List Response),
      Host.Core.run Sys2Proof.core ws.length (s.issueWords ws) = .next t ∧ rs.length = ws.length ∧
      t.outbox = s.outbox ++ rs ∧ t.err = firstError rs ∧ (NoFaultRecorded t ↔ ∀ r ∈ rs, r.err = false)

/-- 00_scope.md R8, 60_exceptions.md R78, R79: a register that holds no value is never answered with one. Two states
that differ only in such registers make the same responses, and still differ only so after a step; the contents of
`ACC` and `TR` in the reset state (log entry 3, DESIGN CHOICE) are of that kind. -/
def Obligations.UnwrittenRegistersUnobservable : Prop :=
  (∀ (s t : State), SameValues s t → ∃ s' t', step s = .next s' ∧ step t = .next t' ∧ SameValues s' t') ∧
  (∀ (a : BitVec 16) (bytes : Vector (BitVec 8) 4), SameValues State.reset { State.reset with acc := a, tr := bytes })
end

