-- ==== Sys2Proof/Laws/Decode.lean ====
section
/-! SUPPORT. The bits of an encoded command word, and the fields read back from it. -/

namespace Sys2Proof

/-- The format `CMD`, bit by bit (30_encoding.md R38). -/
theorem getLsbD_commandWord (op : BitVec 4) (idx : BitVec 2) (imm : BitVec 16) (i : Nat) :
    (commandWord op idx imm).getLsbD i =
      if i < 16 then imm.getLsbD i
      else if i < 24 then false
      else if i < 26 then idx.getLsbD (i - 24)
      else if i < 28 then false
      else op.getLsbD (i - 28) := by
  refine (BitVec.getLsbD_append (x := op ++ 0#2 ++ idx ++ 0#8) (y := imm)).trans ?_
  rw [BitVec.getLsbD_append, BitVec.getLsbD_append, BitVec.getLsbD_append]
  by_cases h0 : i < 16
  · simp [h0]
  · by_cases h1 : i < 24
    · simp [h0, h1, show i - 16 < 8 by omega]
    · by_cases h2 : i < 26
      · rw [show i - 16 - 8 = i - 24 by omega]
        simp [h0, h1, h2, show ¬ i - 16 < 8 by omega, show i - 24 < 2 by omega]
      · by_cases h3 : i < 28
        · simp [h0, h1, h2, h3, show ¬ i - 16 < 8 by omega, show ¬ i - 16 - 8 < 2 by omega,
            show i - 16 - 8 - 2 < 2 by omega]
        · simp [h0, h1, h2, h3, show ¬ i - 16 < 8 by omega, show ¬ i - 16 - 8 < 2 by omega,
            show ¬ i - 16 - 8 - 2 < 2 by omega, show i - 16 - 8 - 2 - 2 = i - 28 by omega]

@[simp] theorem opField_commandWord (op : BitVec 4) (idx : BitVec 2) (imm : BitVec 16) :
    opField (commandWord op idx imm) = op := by
  refine BitVec.eq_of_getLsbD_eq fun i hi => ?_
  rw [opField, BitVec.getLsbD_extractLsb', getLsbD_commandWord]
  simp [hi, show ¬ 28 + i < 16 by omega, show ¬ 28 + i < 24 by omega, show ¬ 28 + i < 26 by omega]

@[simp] theorem idxField_commandWord (op : BitVec 4) (idx : BitVec 2) (imm : BitVec 16) :
    idxField (commandWord op idx imm) = idx := by
  refine BitVec.eq_of_getLsbD_eq fun i hi => ?_
  rw [idxField, BitVec.getLsbD_extractLsb', getLsbD_commandWord]
  simp [hi, show ¬ 24 + i < 16 by omega, show 24 + i < 26 by omega]

@[simp] theorem imm16Field_commandWord (op : BitVec 4) (idx : BitVec 2) (imm : BitVec 16) :
    imm16Field (commandWord op idx imm) = imm := by
  refine BitVec.eq_of_getLsbD_eq fun i hi => ?_
  rw [imm16Field, BitVec.getLsbD_extractLsb', getLsbD_commandWord]
  simp [hi]

@[simp] theorem imm8Field_commandWord (op : BitVec 4) (idx : BitVec 2) (b : BitVec 8) :
    imm8Field (commandWord op idx (b.setWidth 16)) = b := by
  refine BitVec.eq_of_getLsbD_eq fun i hi => ?_
  rw [imm8Field, BitVec.getLsbD_extractLsb', getLsbD_commandWord]
  simp [hi, show i < 16 by omega]

end Sys2Proof
end

