-- ==== Sys2Proof/Laws/PerInstr.lean ====
section
/-! SUPPORT. One lemma per command: its encoding stands in its own row of the opcode map (30_encoding.md R41), so its
opcode is the row's and every must-be-zero bit of it is zero (R40). -/

namespace Sys2Proof.Laws.EncodeRow

/-- The row of a command's mnemonic selects the command's word. -/
def Statement (i : Instr) : Prop := i.row.selects (encode i) = true

/-- To show that a row selects a word, compare the 32 bits. -/
theorem selects_of_bits {r : OpcodeRow} {w : Word}
    (h : ∀ j < 32, (w.getLsbD j && r.mask.getLsbD j) = r.pattern.getLsbD j) : r.selects w = true := by
  rw [OpcodeRow.selects, beq_iff_eq]
  exact BitVec.eq_of_getLsbD_eq fun j hj => by rw [BitVec.getLsbD_and]; exact h j hj

/-- A command with a 16-bit immediate: the low 16 bits are free. -/
theorem selects_imm16 {name : String} {op : BitVec 4} (v : BitVec 16) {p : Word} (hp : p = commandWord op 0 0) :
    (OpcodeRow.mk name p 0xFFFF0000#32).selects (commandWord op 0 v) = true := by
  subst hp
  refine selects_of_bits fun j hj => ?_
  rw [getLsbD_commandWord, getLsbD_commandWord]
  by_cases h : j < 16
  · rw [show BitVec.getLsbD 0xFFFF0000#32 j = false by interval_cases j <;> rfl]; simp [h]
  · rw [show BitVec.getLsbD 0xFFFF0000#32 j = true by interval_cases j <;> rfl]; simp [h]

/-- A command with an index and an 8-bit immediate: only their bits are free. -/
theorem selects_idx_imm8 {name : String} {op : BitVec 4} (i : BitVec 2) (b : BitVec 8) {p : Word}
    (hp : p = commandWord op 0 0) :
    (OpcodeRow.mk name p 0xFCFFFF00#32).selects (commandWord op i (b.setWidth 16)) = true := by
  subst hp
  refine selects_of_bits fun j hj => ?_
  rw [getLsbD_commandWord, getLsbD_commandWord]
  by_cases h : j < 8 ∨ (24 ≤ j ∧ j < 26)
  · rw [show BitVec.getLsbD 0xFCFFFF00#32 j = false by interval_cases j <;> first | rfl | omega]
    rcases h with h | h
    · simp [show j < 16 by omega]
    · simp [show ¬ j < 16 by omega, show ¬ j < 24 by omega, h.2]
  · rw [show BitVec.getLsbD 0xFCFFFF00#32 j = true by interval_cases j <;> first | rfl | omega]
    by_cases h1 : j < 16
    · have hb : b.getLsbD j = false := BitVec.getLsbD_of_ge b j (by omega)
      simp [h1, hb]
    · by_cases h2 : j < 24
      · simp [h1, h2]
      · simp [h1, h2, show ¬ j < 26 by omega]

theorem nop : Statement .nop := by unfold Statement; decide
theorem crcSeed (v : BitVec 16) : Statement (.crcSeed v) := selects_imm16 v (by decide)
theorem crcByte (b : BitVec 8) : Statement (.crcByte b) := by
  revert b; unfold Statement; decide
theorem crcRead : Statement .crcRead := by unfold Statement; decide
theorem trlSetNid (v : BitVec 16) : Statement (.trlSetNid v) := selects_imm16 v (by decide)
theorem trlSetCrc (v : BitVec 16) : Statement (.trlSetCrc v) := selects_imm16 v (by decide)
theorem trlCrcFromAcc : Statement .trlCrcFromAcc := by unfold Statement; decide
theorem trlWriteByte (i : BitVec 2) (b : BitVec 8) : Statement (.trlWriteByte i b) := selects_idx_imm8 i b (by decide)
theorem trlReadByte (i : BitVec 2) : Statement (.trlReadByte i) := by
  revert i; unfold Statement; decide
theorem trlReadNid : Statement .trlReadNid := by unfold Statement; decide
theorem trlReadCrc : Statement .trlReadCrc := by unfold Statement; decide
theorem trlClear : Statement .trlClear := by unfold Statement; decide
theorem statRead : Statement .statRead := by unfold Statement; decide
theorem trlDecode : Statement .trlDecode := by unfold Statement; decide

end Sys2Proof.Laws.EncodeRow
end

