-- ==== Sys2Proof/Laws/State.lean ====
section
/-! SUPPORT. What each update of the state does to each field, so that no later proof unfolds a record update. -/

namespace Sys2Proof.Machine

/-! ### `setAcc` -/

@[simp] theorem State.setAcc_acc (s : State) (v : BitVec 16) : (s.setAcc v).acc = v := rfl
@[simp] theorem State.setAcc_accV (s : State) (v : BitVec 16) : (s.setAcc v).accV = s.accV := rfl
@[simp] theorem State.setAcc_tr (s : State) (v : BitVec 16) : (s.setAcc v).tr = s.tr := rfl
@[simp] theorem State.setAcc_trV (s : State) (v : BitVec 16) : (s.setAcc v).trV = s.trV := rfl
@[simp] theorem State.setAcc_err (s : State) (v : BitVec 16) : (s.setAcc v).err = s.err := rfl
@[simp] theorem State.setAcc_inbox (s : State) (v : BitVec 16) : (s.setAcc v).inbox = s.inbox := rfl
@[simp] theorem State.setAcc_outbox (s : State) (v : BitVec 16) : (s.setAcc v).outbox = s.outbox := rfl
@[simp] theorem State.setAcc_freeCount (s : State) (v : BitVec 16) : (s.setAcc v).freeCount = s.freeCount := rfl

/-! ### `seedAcc` -/

@[simp] theorem State.seedAcc_acc (s : State) (v : BitVec 16) : (s.seedAcc v).acc = v := rfl
@[simp] theorem State.seedAcc_accV (s : State) (v : BitVec 16) : (s.seedAcc v).accV = true := rfl
@[simp] theorem State.seedAcc_tr (s : State) (v : BitVec 16) : (s.seedAcc v).tr = s.tr := rfl
@[simp] theorem State.seedAcc_trV (s : State) (v : BitVec 16) : (s.seedAcc v).trV = s.trV := rfl
@[simp] theorem State.seedAcc_err (s : State) (v : BitVec 16) : (s.seedAcc v).err = s.err := rfl
@[simp] theorem State.seedAcc_inbox (s : State) (v : BitVec 16) : (s.seedAcc v).inbox = s.inbox := rfl
@[simp] theorem State.seedAcc_outbox (s : State) (v : BitVec 16) : (s.seedAcc v).outbox = s.outbox := rfl
@[simp] theorem State.seedAcc_freeCount (s : State) (v : BitVec 16) : (s.seedAcc v).freeCount = s.freeCount := rfl

/-! ### `putTrByte` -/

@[simp] theorem State.putTrByte_acc (s : State) (i : BitVec 2) (b : BitVec 8) : (s.putTrByte i b).acc = s.acc := rfl
@[simp] theorem State.putTrByte_accV (s : State) (i : BitVec 2) (b : BitVec 8) : (s.putTrByte i b).accV = s.accV := rfl
@[simp] theorem State.putTrByte_tr (s : State) (i : BitVec 2) (b : BitVec 8) :
    (s.putTrByte i b).tr = s.tr.set i.toNat b i.isLt := rfl
@[simp] theorem State.putTrByte_trV (s : State) (i : BitVec 2) (b : BitVec 8) :
    (s.putTrByte i b).trV = s.trV ||| byteMask i := rfl
@[simp] theorem State.putTrByte_err (s : State) (i : BitVec 2) (b : BitVec 8) : (s.putTrByte i b).err = s.err := rfl
@[simp] theorem State.putTrByte_inbox (s : State) (i : BitVec 2) (b : BitVec 8) : (s.putTrByte i b).inbox = s.inbox := rfl
@[simp] theorem State.putTrByte_outbox (s : State) (i : BitVec 2) (b : BitVec 8) : (s.putTrByte i b).outbox = s.outbox := rfl
@[simp] theorem State.putTrByte_freeCount (s : State) (i : BitVec 2) (b : BitVec 8) :
    (s.putTrByte i b).freeCount = s.freeCount := rfl

/-! ### `clearTrailer` -/

@[simp] theorem State.clearTrailer_acc (s : State) : (s.clearTrailer).acc = s.acc := rfl
@[simp] theorem State.clearTrailer_accV (s : State) : (s.clearTrailer).accV = s.accV := rfl
@[simp] theorem State.clearTrailer_trV (s : State) : (s.clearTrailer).trV = 0b0000#4 := rfl
@[simp] theorem State.clearTrailer_err (s : State) : (s.clearTrailer).err = s.err := rfl
@[simp] theorem State.clearTrailer_inbox (s : State) : (s.clearTrailer).inbox = s.inbox := rfl
@[simp] theorem State.clearTrailer_outbox (s : State) : (s.clearTrailer).outbox = s.outbox := rfl
@[simp] theorem State.clearTrailer_freeCount (s : State) : (s.clearTrailer).freeCount = s.freeCount + 4 := rfl

/-! ### `respond` -/

@[simp] theorem State.respond_acc (s : State) (v : Word) : (s.respond v).acc = s.acc := rfl
@[simp] theorem State.respond_accV (s : State) (v : Word) : (s.respond v).accV = s.accV := rfl
@[simp] theorem State.respond_tr (s : State) (v : Word) : (s.respond v).tr = s.tr := rfl
@[simp] theorem State.respond_trV (s : State) (v : Word) : (s.respond v).trV = s.trV := rfl
@[simp] theorem State.respond_err (s : State) (v : Word) : (s.respond v).err = s.err := rfl
@[simp] theorem State.respond_inbox (s : State) (v : Word) : (s.respond v).inbox = s.inbox := rfl
@[simp] theorem State.respond_outbox (s : State) (v : Word) : (s.respond v).outbox = s.outbox ++ [⟨false, v⟩] := rfl
@[simp] theorem State.respond_freeCount (s : State) (v : Word) : (s.respond v).freeCount = s.freeCount := rfl

/-! ### `raiseFault` -/

@[simp] theorem State.raiseFault_acc (s : State) (c : ErrorCode) : (s.raiseFault c).acc = s.acc := rfl
@[simp] theorem State.raiseFault_accV (s : State) (c : ErrorCode) : (s.raiseFault c).accV = s.accV := rfl
@[simp] theorem State.raiseFault_tr (s : State) (c : ErrorCode) : (s.raiseFault c).tr = s.tr := rfl
@[simp] theorem State.raiseFault_trV (s : State) (c : ErrorCode) : (s.raiseFault c).trV = s.trV := rfl
@[simp] theorem State.raiseFault_err (s : State) (c : ErrorCode) : (s.raiseFault c).err = stickyErr s.err c := rfl
@[simp] theorem State.raiseFault_inbox (s : State) (c : ErrorCode) : (s.raiseFault c).inbox = s.inbox := rfl
@[simp] theorem State.raiseFault_outbox (s : State) (c : ErrorCode) :
    (s.raiseFault c).outbox = s.outbox ++ [⟨true, zext32 c.code⟩] := rfl
@[simp] theorem State.raiseFault_freeCount (s : State) (c : ErrorCode) :
    (s.raiseFault c).freeCount = s.freeCount := rfl

/-! ### `applyReset` -/

@[simp] theorem State.applyReset_acc (s : State) : (s.applyReset).acc = State.reset.acc := rfl
@[simp] theorem State.applyReset_accV (s : State) : (s.applyReset).accV = false := rfl
@[simp] theorem State.applyReset_tr (s : State) : (s.applyReset).tr = State.reset.tr := rfl
@[simp] theorem State.applyReset_trV (s : State) : (s.applyReset).trV = 0b0000#4 := rfl
@[simp] theorem State.applyReset_err (s : State) : (s.applyReset).err = 0x0#4 := rfl
@[simp] theorem State.applyReset_inbox (s : State) : (s.applyReset).inbox = s.inbox := rfl
@[simp] theorem State.applyReset_outbox (s : State) : (s.applyReset).outbox = s.outbox := rfl
@[simp] theorem State.applyReset_freeCount (s : State) : (s.applyReset).freeCount = s.freeCount := rfl

/-! ### `takeEvent` -/

@[simp] theorem State.takeEvent_acc (s : State) (es : List PortEvent) : (s.takeEvent es).acc = s.acc := rfl
@[simp] theorem State.takeEvent_accV (s : State) (es : List PortEvent) : (s.takeEvent es).accV = s.accV := rfl
@[simp] theorem State.takeEvent_tr (s : State) (es : List PortEvent) : (s.takeEvent es).tr = s.tr := rfl
@[simp] theorem State.takeEvent_trV (s : State) (es : List PortEvent) : (s.takeEvent es).trV = s.trV := rfl
@[simp] theorem State.takeEvent_err (s : State) (es : List PortEvent) : (s.takeEvent es).err = s.err := rfl
@[simp] theorem State.takeEvent_inbox (s : State) (es : List PortEvent) : (s.takeEvent es).inbox = es := rfl
@[simp] theorem State.takeEvent_outbox (s : State) (es : List PortEvent) : (s.takeEvent es).outbox = s.outbox := rfl
@[simp] theorem State.takeEvent_freeCount (s : State) (es : List PortEvent) :
    (s.takeEvent es).freeCount = s.freeCount := rfl

/-! ### `issueWords` -/

@[simp] theorem State.issueWords_acc (s : State) (ws : List Word) : (s.issueWords ws).acc = s.acc := rfl
@[simp] theorem State.issueWords_accV (s : State) (ws : List Word) : (s.issueWords ws).accV = s.accV := rfl
@[simp] theorem State.issueWords_tr (s : State) (ws : List Word) : (s.issueWords ws).tr = s.tr := rfl
@[simp] theorem State.issueWords_trV (s : State) (ws : List Word) : (s.issueWords ws).trV = s.trV := rfl
@[simp] theorem State.issueWords_err (s : State) (ws : List Word) : (s.issueWords ws).err = s.err := rfl
@[simp] theorem State.issueWords_inbox (s : State) (ws : List Word) :
    (s.issueWords ws).inbox = s.inbox ++ ws.map .command := rfl
@[simp] theorem State.issueWords_outbox (s : State) (ws : List Word) : (s.issueWords ws).outbox = s.outbox := rfl
@[simp] theorem State.issueWords_freeCount (s : State) (ws : List Word) :
    (s.issueWords ws).freeCount = s.freeCount := rfl

/-! ### `offerWord` -/

@[simp] theorem State.offerWord_acc (s : State) (w : Word) : (s.offerWord w).acc = s.acc := rfl
@[simp] theorem State.offerWord_accV (s : State) (w : Word) : (s.offerWord w).accV = s.accV := rfl
@[simp] theorem State.offerWord_tr (s : State) (w : Word) : (s.offerWord w).tr = s.tr := rfl
@[simp] theorem State.offerWord_trV (s : State) (w : Word) : (s.offerWord w).trV = s.trV := rfl
@[simp] theorem State.offerWord_err (s : State) (w : Word) : (s.offerWord w).err = s.err := rfl
@[simp] theorem State.offerWord_inbox (s : State) (w : Word) : (s.offerWord w).inbox = .command w :: s.inbox := rfl
@[simp] theorem State.offerWord_outbox (s : State) (w : Word) : (s.offerWord w).outbox = s.outbox := rfl
@[simp] theorem State.offerWord_freeCount (s : State) (w : Word) : (s.offerWord w).freeCount = s.freeCount := rfl

/-! ### The two field writes, each two byte writes -/

@[simp] theorem State.putNid_acc (s : State) (v : BitVec 16) : (s.putNid v).acc = s.acc := rfl
@[simp] theorem State.putNid_accV (s : State) (v : BitVec 16) : (s.putNid v).accV = s.accV := rfl
@[simp] theorem State.putNid_trV (s : State) (v : BitVec 16) : (s.putNid v).trV = s.trV ||| nidMask := by
  simp only [State.putNid, State.putTrByte_trV, BitVec.or_assoc]
  rfl
@[simp] theorem State.putNid_err (s : State) (v : BitVec 16) : (s.putNid v).err = s.err := rfl
@[simp] theorem State.putNid_inbox (s : State) (v : BitVec 16) : (s.putNid v).inbox = s.inbox := rfl
@[simp] theorem State.putNid_outbox (s : State) (v : BitVec 16) : (s.putNid v).outbox = s.outbox := rfl
@[simp] theorem State.putNid_freeCount (s : State) (v : BitVec 16) : (s.putNid v).freeCount = s.freeCount := rfl
@[simp] theorem State.putTcrc_acc (s : State) (v : BitVec 16) : (s.putTcrc v).acc = s.acc := rfl
@[simp] theorem State.putTcrc_accV (s : State) (v : BitVec 16) : (s.putTcrc v).accV = s.accV := rfl
@[simp] theorem State.putTcrc_trV (s : State) (v : BitVec 16) : (s.putTcrc v).trV = s.trV ||| crcMask := by
  simp only [State.putTcrc, State.putTrByte_trV, BitVec.or_assoc]
  rfl
@[simp] theorem State.putTcrc_err (s : State) (v : BitVec 16) : (s.putTcrc v).err = s.err := rfl
@[simp] theorem State.putTcrc_inbox (s : State) (v : BitVec 16) : (s.putTcrc v).inbox = s.inbox := rfl
@[simp] theorem State.putTcrc_outbox (s : State) (v : BitVec 16) : (s.putTcrc v).outbox = s.outbox := rfl
@[simp] theorem State.putTcrc_freeCount (s : State) (v : BitVec 16) : (s.putTcrc v).freeCount = s.freeCount := rfl

end Sys2Proof.Machine
end

