-- ==== Sys2Proof/Laws/Trailer.lean ====
section
/-! SUPPORT. Reading a trailer byte and its validity bit after each update. -/

namespace Sys2Proof.Machine

/-! ### Which bits a mask has -/

/-- A mask's bytes are all valid exactly when each bit it has is set. -/
theorem allValid_iff (trV need : BitVec 4) :
    allValid trV need = true ↔ ∀ i : BitVec 2, need.getLsbD i.toNat = true → trV.getLsbD i.toNat = true := by
  revert trV need; decide

theorem getLsbD_byteMask (i j : BitVec 2) : (byteMask i).getLsbD j.toNat = (i == j) := by
  revert i j; decide

theorem getLsbD_or_byteMask (trV : BitVec 4) (i j : BitVec 2) :
    (trV ||| byteMask i).getLsbD j.toNat = (trV.getLsbD j.toNat || i == j) := by
  rw [BitVec.getLsbD_or, getLsbD_byteMask]

/-- A byte is read under its own mask exactly when its `TR_V` bit is set (60_exceptions.md R79). -/
theorem allValid_byteMask (trV : BitVec 4) (i : BitVec 2) : allValid trV (byteMask i) = trV.getLsbD i.toNat := by
  revert trV i; decide

/-! ### Trailer bytes -/

/-- A trailer register is its four bytes: taking one apart lets every trailer update compute. -/
theorem exists_bytes (v : Vector (BitVec 8) 4) : ∃ b₀ b₁ b₂ b₃, v = #v[b₀, b₁, b₂, b₃] := by
  refine ⟨v[0], v[1], v[2], v[3], Vector.ext fun i hi => ?_⟩
  interval_cases i <;> rfl

@[simp] theorem State.trByte_putTrByte_self (s : State) (i : BitVec 2) (b : BitVec 8) : (s.putTrByte i b).trByte i = b := by
  simp [State.trByte]

theorem State.trByte_putTrByte_ne (s : State) {i j : BitVec 2} (b : BitVec 8) (h : j ≠ i) :
    (s.putTrByte i b).trByte j = s.trByte j := by
  have h' : i.toNat ≠ j.toNat := fun e => h (BitVec.eq_of_toNat_eq e.symm)
  simp [State.trByte, h']

@[simp] theorem State.trByte_setAcc (s : State) (v : BitVec 16) (i : BitVec 2) : (s.setAcc v).trByte i = s.trByte i := rfl
@[simp] theorem State.trByte_seedAcc (s : State) (v : BitVec 16) (i : BitVec 2) : (s.seedAcc v).trByte i = s.trByte i := rfl
@[simp] theorem State.trByte_respond (s : State) (v : Word) (i : BitVec 2) : (s.respond v).trByte i = s.trByte i := rfl
@[simp] theorem State.trByte_raiseFault (s : State) (c : ErrorCode) (i : BitVec 2) :
    (s.raiseFault c).trByte i = s.trByte i := rfl
@[simp] theorem State.trByte_takeEvent (s : State) (es : List PortEvent) (i : BitVec 2) :
    (s.takeEvent es).trByte i = s.trByte i := rfl

/-! ### The field writes, byte by byte (20_memory.md R26) -/

@[simp] theorem State.trByte_putNid_zero (s : State) (v : BitVec 16) : (s.putNid v).trByte 0#2 = loByte v := by
  rw [State.putNid, State.trByte_putTrByte_ne _ _ (by decide), State.trByte_putTrByte_self]

@[simp] theorem State.trByte_putNid_one (s : State) (v : BitVec 16) : (s.putNid v).trByte 1#2 = hiByte v :=
  State.trByte_putTrByte_self _ _ _

@[simp] theorem State.trByte_putTcrc_two (s : State) (v : BitVec 16) : (s.putTcrc v).trByte 2#2 = loByte v := by
  rw [State.putTcrc, State.trByte_putTrByte_ne _ _ (by decide), State.trByte_putTrByte_self]

@[simp] theorem State.trByte_putTcrc_three (s : State) (v : BitVec 16) : (s.putTcrc v).trByte 3#2 = hiByte v :=
  State.trByte_putTrByte_self _ _ _

theorem State.trByte_putNid_of_crc (s : State) (v : BitVec 16) {i : BitVec 2} (h : i = 2#2 ∨ i = 3#2) :
    (s.putNid v).trByte i = s.trByte i := by
  rcases h with rfl | rfl <;>
    rw [State.putNid, State.trByte_putTrByte_ne _ _ (by decide), State.trByte_putTrByte_ne _ _ (by decide)]

theorem State.trByte_putTcrc_of_nid (s : State) (v : BitVec 16) {i : BitVec 2} (h : i = 0#2 ∨ i = 1#2) :
    (s.putTcrc v).trByte i = s.trByte i := by
  rcases h with rfl | rfl <;>
    rw [State.putTcrc, State.trByte_putTrByte_ne _ _ (by decide), State.trByte_putTrByte_ne _ _ (by decide)]

/-! ### Joining what was split -/

theorem getLsbD_join16 (h l : BitVec 8) (i : Nat) :
    (join16 h l).getLsbD i = if i < 8 then l.getLsbD i else h.getLsbD (i - 8) :=
  (BitVec.getLsbD_append (x := h) (y := l)).trans (by by_cases h' : i < 8 <;> simp [h'])

theorem getLsbD_loByte (v : BitVec 16) (i : Nat) : (loByte v).getLsbD i = (decide (i < 8) && v.getLsbD i) := by
  simp [loByte, BitVec.getLsbD_extractLsb']

theorem getLsbD_hiByte (v : BitVec 16) (i : Nat) : (hiByte v).getLsbD i = (decide (i < 8) && v.getLsbD (8 + i)) := by
  simp [hiByte, BitVec.getLsbD_extractLsb']

@[simp] theorem join16_hiByte_loByte (v : BitVec 16) : join16 (hiByte v) (loByte v) = v := by
  refine BitVec.eq_of_getLsbD_eq fun i hi => ?_
  rw [getLsbD_join16, getLsbD_loByte, getLsbD_hiByte]
  split
  · simp [*]
  · simp [show i - 8 < 8 by omega, show 8 + (i - 8) = i by omega]

@[simp] theorem loByte_join16 (h l : BitVec 8) : loByte (join16 h l) = l := by
  refine BitVec.eq_of_getLsbD_eq fun i hi => ?_
  rw [getLsbD_loByte, getLsbD_join16]
  simp [hi]

@[simp] theorem hiByte_join16 (h l : BitVec 8) : hiByte (join16 h l) = h := by
  refine BitVec.eq_of_getLsbD_eq fun i hi => ?_
  rw [getLsbD_hiByte, getLsbD_join16]
  simp [hi]

@[simp] theorem State.nid_respond (s : State) (v : Word) : (s.respond v).nid = s.nid := rfl
@[simp] theorem State.tcrc_respond (s : State) (v : Word) : (s.respond v).tcrc = s.tcrc := rfl
@[simp] theorem State.trailerWord_respond (s : State) (v : Word) : (s.respond v).trailerWord = s.trailerWord := rfl

/-- A field written is the field read (20_memory.md R28). -/
@[simp] theorem State.nid_putNid (s : State) (v : BitVec 16) : (s.putNid v).nid = v := by
  rw [State.nid, State.trByte_putNid_one, State.trByte_putNid_zero, join16_hiByte_loByte]

@[simp] theorem State.tcrc_putTcrc (s : State) (v : BitVec 16) : (s.putTcrc v).tcrc = v := by
  rw [State.tcrc, State.trByte_putTcrc_three, State.trByte_putTcrc_two, join16_hiByte_loByte]

@[simp] theorem State.tcrc_putNid (s : State) (v : BitVec 16) : (s.putNid v).tcrc = s.tcrc := by
  rw [State.tcrc, State.trByte_putNid_of_crc _ _ (.inr rfl), State.trByte_putNid_of_crc _ _ (.inl rfl), State.tcrc]

@[simp] theorem State.nid_putTcrc (s : State) (v : BitVec 16) : (s.putTcrc v).nid = s.nid := by
  rw [State.nid, State.trByte_putTcrc_of_nid _ _ (.inr rfl), State.trByte_putTcrc_of_nid _ _ (.inl rfl), State.nid]

/-- The whole trailer is the CRC field above the network ID (41_trailer.md R67). -/
theorem State.trailerWord_eq (s : State) : s.trailerWord = (s.tcrc ++ s.nid : BitVec (16 + 16)) := by
  refine BitVec.eq_of_getLsbD_eq fun i hi => ?_
  refine (BitVec.getLsbD_append (x := s.trByte 3#2 ++ s.trByte 2#2 ++ s.trByte 1#2) (y := s.trByte 0#2)).trans ?_
  refine Eq.trans ?_ (BitVec.getLsbD_append (x := s.tcrc) (y := s.nid)).symm
  rw [BitVec.getLsbD_append, BitVec.getLsbD_append, State.nid, State.tcrc, getLsbD_join16, getLsbD_join16]
  by_cases h0 : i < 8
  · simp [h0, show i < 16 by omega]
  · by_cases h1 : i < 16
    · simp [h0, h1, show i - 8 < 8 by omega]
    · by_cases h2 : i < 24
      · simp [h0, h1, show ¬ i - 8 < 8 by omega, show i - 16 < 8 by omega,
          show i - 8 - 8 = i - 16 by omega]
      · simp [h0, h1, show ¬ i - 8 < 8 by omega, show ¬ i - 8 - 8 < 8 by omega, show ¬ i - 16 < 8 by omega,
          show i - 8 - 8 - 8 = i - 16 - 8 by omega]

end Sys2Proof.Machine
end

