-- ==== Sys2Proof/Laws/Step.lean ====
section
/-! SUPPORT. Once and for all: what each shared operation, each command and each step can do. -/

namespace Sys2Proof.Machine

/-! ### The shared operations -/

/-- The sticky field after a fault is never `E_NONE` (10_state.md R17). -/
theorem stickyErr_ne_zero (old : BitVec 4) (c : ErrorCode) : stickyErr old c ≠ 0#4 := by
  revert old; cases c <;> decide

theorem stickyErr_of_ne {old : BitVec 4} (h : old ≠ 0#4) (c : ErrorCode) : stickyErr old c = old := if_neg h

@[simp] theorem stickyErr_zero (c : ErrorCode) : stickyErr 0#4 c = c.code := rfl

@[simp] theorem State.withAcc_of_valid {s : State} (h : s.accV = true) (k : BitVec 16 → State) :
    s.withAcc k = .next (k s.acc) := by simp [State.withAcc, h]

@[simp] theorem State.withAcc_of_invalid {s : State} (h : s.accV = false) (k : BitVec 16 → State) :
    s.withAcc k = .next (s.raiseFault .unseeded) := by simp [State.withAcc, h]

@[simp] theorem State.withTrailer_of_valid {s : State} {need : BitVec 4} (h : allValid s.trV need = true) (k : State) :
    s.withTrailer need k = .next k := by simp [State.withTrailer, h]

@[simp] theorem State.withTrailer_of_invalid {s : State} {need : BitVec 4} (h : allValid s.trV need = false)
    (k : State) : s.withTrailer need k = .next (s.raiseFault .trlIncomplete) := by simp [State.withTrailer, h]

/-- What `withAcc` can answer: the command's effect from a valid `ACC`, or `E_UNSEEDED`. -/
theorem State.withAcc_cases {s t : State} {k : BitVec 16 → State} (h : s.withAcc k = .next t) :
    (s.accV = true ∧ t = k s.acc) ∨ (s.accV = false ∧ t = s.raiseFault .unseeded) := by
  cases hv : s.accV with
  | true => exact .inl ⟨rfl, by simpa [hv] using h.symm⟩
  | false => exact .inr ⟨rfl, by simpa [hv] using h.symm⟩

/-- What `withTrailer` can answer: the command's effect from valid bytes, or `E_TRL_INCOMPLETE`. -/
theorem State.withTrailer_cases {s t k : State} {need : BitVec 4} (h : s.withTrailer need k = .next t) :
    (allValid s.trV need = true ∧ t = k) ∨ (allValid s.trV need = false ∧ t = s.raiseFault .trlIncomplete) := by
  cases hv : allValid s.trV need with
  | true => exact .inl ⟨rfl, by simpa [hv] using h.symm⟩
  | false => exact .inr ⟨rfl, by simpa [hv] using h.symm⟩

/-! ### One command -/

/-- Every command either faults with no effect but the fault's, or succeeds: some update `u` of the registers that
leaves `ERR` and the port alone, and then one response. -/
theorem exec_cases {i : Instr} {s t : State} (h : exec i s = .next t) :
    (t = s.raiseFault .unseeded ∧ Safety.readsAcc i = true ∧ s.accV = false) ∨
    (t = s.raiseFault .trlIncomplete ∧ ∃ j, Safety.needsTrailerByte i j = true ∧ s.trV.getLsbD j.toNat = false) ∨
    (∃ u v, t = u.respond v ∧ u.err = s.err ∧ u.inbox = s.inbox ∧ u.outbox = s.outbox ∧
      (Safety.isReadCommand i = true → u = s) ∧ (Safety.isReadCommand i = false → v = 0)) := by
  cases i with
  | nop | statRead =>
    exact .inr (.inr ⟨s, _, (Host.Outcome.next.inj h).symm, rfl, rfl, rfl, by simp, by simp [Safety.isReadCommand]⟩)
  | crcSeed v => exact .inr (.inr ⟨_, _, (Host.Outcome.next.inj h).symm, rfl, rfl, rfl, nofun, by simp⟩)
  | trlSetNid v => exact .inr (.inr ⟨_, _, (Host.Outcome.next.inj h).symm, rfl, rfl, rfl, nofun, by simp⟩)
  | trlSetCrc v => exact .inr (.inr ⟨_, _, (Host.Outcome.next.inj h).symm, rfl, rfl, rfl, nofun, by simp⟩)
  | trlClear => exact .inr (.inr ⟨_, _, (Host.Outcome.next.inj h).symm, rfl, rfl, rfl, nofun, by simp⟩)
  | trlWriteByte j b => exact .inr (.inr ⟨_, _, (Host.Outcome.next.inj h).symm, rfl, rfl, rfl, nofun, by simp⟩)
  | crcByte b =>
    simp only [exec, execCrcByte] at h
    rcases State.withAcc_cases h with ⟨-, rfl⟩ | ⟨hv, rfl⟩
    · exact .inr (.inr ⟨_, _, rfl, rfl, rfl, rfl, nofun, by simp⟩)
    · exact .inl ⟨rfl, rfl, hv⟩
  | trlCrcFromAcc =>
    simp only [exec, execTrlCrcFromAcc] at h
    rcases State.withAcc_cases h with ⟨-, rfl⟩ | ⟨hv, rfl⟩
    · exact .inr (.inr ⟨_, _, rfl, rfl, rfl, rfl, nofun, by simp⟩)
    · exact .inl ⟨rfl, rfl, hv⟩
  | crcRead =>
    simp only [exec, execCrcRead] at h
    rcases State.withAcc_cases h with ⟨-, rfl⟩ | ⟨hv, rfl⟩
    · exact .inr (.inr ⟨_, _, rfl, rfl, rfl, rfl, by simp, nofun⟩)
    · exact .inl ⟨rfl, rfl, hv⟩
  | trlReadByte j =>
    rcases State.withTrailer_cases (s := s) h with ⟨-, rfl⟩ | ⟨hv, rfl⟩
    · exact .inr (.inr ⟨_, _, rfl, rfl, rfl, rfl, by simp, nofun⟩)
    · exact .inr (.inl ⟨rfl, j, by simp [Safety.needsTrailerByte], by rwa [allValid_byteMask] at hv⟩)
  | trlReadNid =>
    rcases State.withTrailer_cases (s := s) h with ⟨-, rfl⟩ | ⟨hv, rfl⟩
    · exact .inr (.inr ⟨_, _, rfl, rfl, rfl, rfl, by simp, nofun⟩)
    · refine .inr (.inl ⟨rfl, ?_⟩)
      revert hv; generalize s.trV = m; revert m; decide
  | trlReadCrc =>
    rcases State.withTrailer_cases (s := s) h with ⟨-, rfl⟩ | ⟨hv, rfl⟩
    · exact .inr (.inr ⟨_, _, rfl, rfl, rfl, rfl, by simp, nofun⟩)
    · refine .inr (.inl ⟨rfl, ?_⟩)
      revert hv; generalize s.trV = m; revert m; decide
  | trlDecode =>
    rcases State.withTrailer_cases (s := s) h with ⟨-, rfl⟩ | ⟨hv, rfl⟩
    · exact .inr (.inr ⟨_, _, rfl, rfl, rfl, rfl, by simp, nofun⟩)
    · refine .inr (.inl ⟨rfl, ?_⟩)
      revert hv; generalize s.trV = m; revert m; decide

/-! ### One step -/

theorem runWord_of_command {w : Word} {i : Instr} (h : decode w = .command i) (s : State) :
    runWord w s = exec i s := by simp [runWord, h]

theorem runWord_of_illegalOp {w : Word} (h : decode w = .illegalOp) (s : State) :
    runWord w s = .next (s.raiseFault .illegalOp) := by simp [runWord, h, rejectIllegalOp]

theorem runWord_of_rsvNonzero {w : Word} (h : decode w = .rsvNonzero) (s : State) :
    runWord w s = .next (s.raiseFault .rsvNonzero) := by simp [runWord, h, rejectRsvNonzero]

/-- A step whose oldest event is a command word. -/
theorem step_of_command {s : State} {w : Word} {rest : List PortEvent} (h : s.inbox = .command w :: rest) :
    step s = runWord w (s.takeEvent rest) := by unfold step; rw [h]

/-- A step whose oldest event is a reset, of either kind. -/
theorem step_of_reset {s : State} {rest : List PortEvent}
    (h : s.inbox = .reset :: rest ∨ ∃ w, s.inbox = .resetDuring w :: rest) :
    step s = .next (s.takeEvent rest).applyReset := by
  unfold step
  rcases h with h | ⟨w, h⟩ <;> rw [h] <;> rfl

/-- What a command word can do: raise a fault with no other effect, or, when it decodes to a command, update the
registers but not `ERR` and give one response of success. -/
theorem runWord_cases {w : Word} {s t : State} (h : runWord w s = .next t) :
    (∃ c, t = s.raiseFault c) ∨
    (∃ (i : Instr) (u : State) (v : Word), decode w = .command i ∧ t = u.respond v ∧
      u.err = s.err ∧ u.inbox = s.inbox ∧ u.outbox = s.outbox ∧ (Safety.isReadCommand i = false → v = 0)) := by
  cases hd : decode w with
  | illegalOp => rw [runWord_of_illegalOp hd] at h; exact .inl ⟨_, (Host.Outcome.next.inj h).symm⟩
  | rsvNonzero => rw [runWord_of_rsvNonzero hd] at h; exact .inl ⟨_, (Host.Outcome.next.inj h).symm⟩
  | command i =>
    rw [runWord_of_command hd] at h
    rcases exec_cases h with ⟨h1, -⟩ | ⟨h1, -⟩ | ⟨u, v, h1, h2, h3, h4, -, h6⟩
    · exact .inl ⟨_, h1⟩
    · exact .inl ⟨_, h1⟩
    · exact .inr ⟨i, u, v, rfl, h1, h2, h3, h4, h6⟩

/-- Everything a step can be: an idle one, a command word, a reset between commands or during one. -/
theorem step_cases (s : State) :
    (s.inbox = [] ∧ step s = .next s) ∨
    (∃ w rest, s.inbox = .command w :: rest ∧ step s = runWord w (s.takeEvent rest)) ∨
    (∃ rest, s.inbox = .reset :: rest ∧ step s = .next (s.takeEvent rest).applyReset) ∨
    (∃ w rest, s.inbox = .resetDuring w :: rest ∧ step s = .next (s.takeEvent rest).applyReset) := by
  unfold step
  match s.inbox with
  | [] => exact .inl ⟨rfl, rfl⟩
  | .command w :: rest => exact .inr (.inl ⟨w, rest, rfl, rfl⟩)
  | .reset :: rest => exact .inr (.inr (.inl ⟨rest, rfl, rfl⟩))
  | .resetDuring w :: rest => exact .inr (.inr (.inr ⟨w, rest, rfl, rfl⟩))

/-! ### Several steps -/

/-- One more step of any machine whose step answers a next state. -/
theorem run_succ_of_step (M : Host.Core) (k : Nat) (s t : M.State) (h : M.step s = .next t) :
    M.run (k + 1) s = M.run k t := by simp only [Host.Core.run, h]

/-- One more step of the block. -/
theorem core_run_succ {s t : State} (h : step s = .next t) (k : Nat) :
    Host.Core.run Sys2Proof.core (k + 1) s = Host.Core.run Sys2Proof.core k t :=
  run_succ_of_step Sys2Proof.core k s t h

theorem execAll_cons {i : Instr} {s t : State} (h : exec i s = .next t) (is : List Instr) :
    Safety.execAll (i :: is) s = Safety.execAll is t := by simp only [Safety.execAll, h]

end Sys2Proof.Machine
end

