-- ==== Sys2Proof/Laws/Responses.lean ====
section
/-! SUPPORT. The first error in a list of responses, and the trailer bits no command has written. -/

namespace Sys2Proof.Safety

open Sys2Proof.Machine

@[simp] theorem firstError_nil : firstError [] = 0#4 := rfl

@[simp] theorem firstError_cons_error (d : Word) (rs : List Response) : firstError (⟨true, d⟩ :: rs) = d.setWidth 4 := rfl

@[simp] theorem firstError_cons_success (d : Word) (rs : List Response) :
    firstError (⟨false, d⟩ :: rs) = firstError rs := rfl

/-- The code of a legal error response is not `E_NONE`. -/
theorem LegalResponse.code_ne_zero {r : Response} (h : LegalResponse r) (he : r.err = true) : r.data.setWidth 4 ≠ 0#4 := by
  intro hz
  have := congrArg BitVec.toNat hz
  have := h he
  simp only [BitVec.toNat_setWidth, BitVec.toNat_ofNat] at *
  omega

/-- Legal responses hold no error code exactly when every one is a success. -/
theorem firstError_eq_zero_iff {rs : List Response} (h : ∀ r ∈ rs, LegalResponse r) :
    firstError rs = 0#4 ↔ ∀ r ∈ rs, r.err = false := by
  induction rs with
  | nil => simp
  | cons r rs ih =>
    obtain ⟨e, d⟩ := r
    simp only [List.forall_mem_cons] at h ⊢
    cases e with
    | true => simpa using h.1.code_ne_zero rfl
    | false => simpa using ih h.2

/-- A later response counts only if every earlier one is a success. -/
theorem firstError_append (rs ss : List Response) :
    firstError (rs ++ ss) = if ∀ r ∈ rs, r.err = false then firstError ss else firstError rs := by
  induction rs with
  | nil => simp
  | cons r rs ih =>
    obtain ⟨e, d⟩ := r
    cases e with
    | true => simp
    | false => simp [ih]

/-- The response of a fault has a legal form (60_exceptions.md R75). -/
theorem legalResponse_fault (c : ErrorCode) : LegalResponse ⟨true, zext32 c.code⟩ := by
  cases c <;> decide

end Sys2Proof.Safety

namespace Sys2Proof.Machine

/-- A command that does not write trailer byte `j` never makes it valid (10_state.md R16). -/
theorem exec_trV_of_not_written {i : Instr} {s t : State} {j : BitVec 2} (h : exec i s = .next t)
    (hw : Safety.writesTrailerByte i j = false) (hv : s.trV.getLsbD j.toNat = false) :
    t.trV.getLsbD j.toNat = false := by
  rcases exec_cases h with ⟨rfl, -⟩ | ⟨rfl, -⟩ | ⟨u, v, rfl, -, -, -, hr, -⟩
  · exact hv
  · exact hv
  · cases i with
    | crcRead | trlReadByte _ | trlReadNid | trlReadCrc | statRead | trlDecode => rw [hr rfl]; exact hv
    | nop | crcSeed _ => rw [← Host.Outcome.next.inj h]; exact hv
    | crcByte _ =>
      simp only [exec, execCrcByte] at h
      rcases State.withAcc_cases h with ⟨-, h⟩ | ⟨-, h⟩ <;> rw [h] <;> exact hv
    | trlClear => rw [← Host.Outcome.next.inj h]; simp
    | trlSetNid w =>
      rw [← Host.Outcome.next.inj h]
      revert hw hv; simp only [Safety.writesTrailerByte, State.respond_trV, State.putNid, State.putTrByte_trV]
      generalize s.trV = m; revert m j; decide
    | trlSetCrc w =>
      rw [← Host.Outcome.next.inj h]
      revert hw hv; simp only [Safety.writesTrailerByte, State.respond_trV, State.putTcrc, State.putTrByte_trV]
      generalize s.trV = m; revert m j; decide
    | trlCrcFromAcc =>
      simp only [exec, execTrlCrcFromAcc] at h
      rcases State.withAcc_cases h with ⟨-, h⟩ | ⟨-, h⟩
      · rw [h]
        revert hw hv; simp only [Safety.writesTrailerByte, State.respond_trV, State.putTcrc, State.putTrByte_trV]
        generalize s.trV = m; revert m j; decide
      · rw [h]; exact hv
    | trlWriteByte k w =>
      rw [← Host.Outcome.next.inj h]
      clear h hr
      revert hw hv; simp only [Safety.writesTrailerByte, State.respond_trV, State.putTrByte_trV]
      generalize s.trV = m; revert m j k; decide

end Sys2Proof.Machine
end

