-- ==== Sys2Proof/Tests/Slice0.lean ====
section
/-! SUPPORT. Small tests of the model against 95_test_vectors.md and the rules' own examples, and one witness for the
hypotheses of each obligation that has any. -/

namespace Sys2Proof.Tests

open Sys2Proof.Machine Sys2Proof.Safety

/-! ### Helpers -/

/-- The start state of 95_test_vectors.md section 4: seeded, with the trailer `34 12 AD AD` written. -/
def full : State :=
  { State.reset with acc := 0xFFFF#16, accV := true, tr := #v[0x34, 0x12, 0xAD, 0xAD], trV := 0b1111#4 }

/-- The outcome is a next state that has the property. -/
def next (o : Result) (p : State → Bool) : Bool :=
  match o with
  | .next t => p t
  | .fault _ => false
  | .refused _ => false

/-- The step that takes this word from the port of `s` responds `(e, d)`. -/
def answers (s : State) (w : Word) (e : Bool) (d : Word) : Bool :=
  next (step (s.offerWord w)) fun t => t.outbox == s.outbox ++ [⟨e, d⟩]

/-- The state after a command that succeeds or faults; used to build the small states of the tests. -/
def after (i : Instr) (s : State) : State :=
  match exec i s with
  | .next t => t
  | .fault _ => s
  | .refused _ => s

/-! ### Decoding: one word of each command, its fields written out from 30_encoding.md R38 and R40 -/

theorem test_decode_nop : decode 0b0000_00_00_00000000_00000000_00000000#32 = .command .nop := by decide
theorem test_decode_crcSeed :
    decode 0b0001_00_00_00000000_11111111_11111110#32 = .command (.crcSeed 0xFFFE) := by decide
theorem test_decode_crcByte :
    decode 0b0010_00_00_00000000_00000000_01000001#32 = .command (.crcByte 0x41) := by decide
theorem test_decode_crcRead : decode 0b0011_00_00_00000000_00000000_00000000#32 = .command .crcRead := by decide
theorem test_decode_trlSetNid :
    decode 0b0100_00_00_00000000_10111110_11101111#32 = .command (.trlSetNid 0xBEEF) := by decide
theorem test_decode_trlSetCrc :
    decode 0b0101_00_00_00000000_00101001_10110001#32 = .command (.trlSetCrc 0x29B1) := by decide
theorem test_decode_trlCrcFromAcc :
    decode 0b0110_00_00_00000000_00000000_00000000#32 = .command .trlCrcFromAcc := by decide
theorem test_decode_trlWriteByte :
    decode 0b0111_00_10_00000000_00000000_10110001#32 = .command (.trlWriteByte 2 0xB1) := by decide
theorem test_decode_trlReadByte :
    decode 0b1000_00_01_00000000_00000000_00000000#32 = .command (.trlReadByte 1) := by decide
theorem test_decode_trlReadNid :
    decode 0b1001_00_00_00000000_00000000_00000000#32 = .command .trlReadNid := by decide
theorem test_decode_trlReadCrc :
    decode 0b1010_00_00_00000000_00000000_00000000#32 = .command .trlReadCrc := by decide
theorem test_decode_trlClear : decode 0b1011_00_00_00000000_00000000_00000000#32 = .command .trlClear := by decide
theorem test_decode_statRead : decode 0b1100_00_00_00000000_00000000_00000000#32 = .command .statRead := by decide
theorem test_decode_trlDecode : decode 0b1101_00_00_00000000_00000000_00000000#32 = .command .trlDecode := by decide

/-- The encoder, against column "encoding" of 30_encoding.md R46. -/
theorem test_encode :
    encode (.crcSeed 0xFFFF) = 0x1000FFFF ∧ encode (.crcByte 0x41) = 0x20000041 ∧
    encode (.trlSetNid 0xBEEF) = 0x4000BEEF ∧ encode (.trlWriteByte 2 0xB1) = 0x720000B1 ∧
    encode (.trlReadByte 3) = 0x83000000 ∧ encode .trlDecode = 0xD0000000 := by decide

/-- 95_test_vectors.md section 4, the rows that no command matches. -/
theorem test_decode_rejects :
    decode 0x00000001 = .rsvNonzero ∧ decode 0x1001FFFF = .rsvNonzero ∧ decode 0x14000000 = .rsvNonzero ∧
    decode 0x20000141 = .rsvNonzero ∧ decode 0x7C0000FF = .rsvNonzero ∧ decode 0x73010000 = .rsvNonzero ∧
    decode 0x830000FF = .rsvNonzero ∧ decode 0xC0000010 = .rsvNonzero ∧
    decode 0xE0000000 = .illegalOp ∧ decode 0xEFFFFFFF = .illegalOp ∧
    decode 0xF0000000 = .illegalOp ∧ decode 0xFFFFFFFF = .illegalOp := by decide

/-- The host's entry points: the word of a table row, decoded, and run as the first command after reset. -/
theorem test_entry_points :
    decodeTableWord 32 0x1000FFFF = some (.crcSeed 0xFFFF) ∧ decodeTableWord 32 0xE0000000 = none ∧
    next (step (State.reset.withFetchWord 32 0x1000FFFF)) (fun t => t.acc == 0xFFFF && t.accV && t.inbox == []) := by
  decide

/-! ### The assembler (30_encoding.md R46) -/

theorem test_wellFormed_refuses_crcSeed : (AsmCmd.crcSeed 0x10000).wellFormed = false := by decide
theorem test_wellFormed_refuses_crcByte : (AsmCmd.crcByte 0x100).wellFormed = false := by decide
theorem test_wellFormed_refuses_trlSetNid : (AsmCmd.trlSetNid 0x10000).wellFormed = false := by decide
theorem test_wellFormed_refuses_trlSetCrc : (AsmCmd.trlSetCrc 0x10000).wellFormed = false := by decide
theorem test_wellFormed_refuses_trlWriteByte_index : (AsmCmd.trlWriteByte 4 0).wellFormed = false := by decide
theorem test_wellFormed_refuses_trlWriteByte_byte : (AsmCmd.trlWriteByte 0 0x100).wellFormed = false := by decide
theorem test_wellFormed_refuses_trlReadByte : (AsmCmd.trlReadByte 4).wellFormed = false := by decide
theorem test_wellFormed_accepts : (AsmCmd.trlWriteByte 3 0xFF).wellFormed = true := by decide

theorem test_assemble :
    assemble (.crcSeed 0xFFFF) = some 0x1000FFFF ∧ assemble (.crcSeed 0x10000) = none := by decide

/-- Program P4, line 1. -/
theorem test_assembleLine_hex : assembleLine "CRC_SEED 0xFFFF".toList = some 0x1000FFFF := by decide
/-- 95_test_vectors.md section 4: write byte 3 = 0xFF, here in decimal. -/
theorem test_assembleLine_decimal : assembleLine "TRL_WRITE_BYTE 3, 255".toList = some 0x730000FF := by decide
theorem test_assembleLine_range : assembleLine "CRC_BYTE 256".toList = none := by decide
theorem test_assembleLine_operands : assembleLine "NOP 0".toList = none := by decide

/-! ### The CRC function (95_test_vectors.md sections 2.2 to 2.4; 40_crc.md R51) -/

theorem test_crcStep_vectors :
    crcStep 0xFFFF 0x00 = 0xE1F0 ∧ crcStep 0xFFFF 0xFF = 0xFF00 ∧ crcStep 0xFFFF 0x01 = 0xF1D1 ∧
    crcStep 0x0000 0x00 = 0x0000 ∧ crcStep 0x0000 0x01 = 0x1021 ∧ crcStep 0x0000 0x80 = 0x9188 ∧
    crcStep 0x8000 0x00 = 0x9188 ∧ crcStep 0x0001 0x00 = 0x0100 ∧ crcStep 0x00FF 0x00 = 0xFF00 ∧
    crcStep 0x1234 0x56 = 0x3C40 ∧ crcStep 0xADAD 0x00 = 0xC947 ∧ crcStep 0x1D0F 0xA5 = 0x29D3 := by decide

/-- The bit trace of R51, from 0xFEFF. -/
theorem test_crcShift_trace :
    crcShift 0xFEFF = 0xEDDF ∧ crcShift 0xEDDF = 0xCB9F ∧ crcShift 0xCB9F = 0x871F ∧ crcShift 0x871F = 0x1E1F ∧
    crcShift 0x1E1F = 0x3C3E ∧ crcShift 0x3C3E = 0x787C ∧ crcShift 0x787C = 0xF0F8 ∧ crcShift 0xF0F8 = 0xF1D1 := by
  decide

theorem test_crc16_example : crc16 [0x01, 0x02, 0x03] 0xFFFF = 0xADAD := by decide +kernel
theorem test_crc16_empty : crc16 [] 0x1D0F = 0x1D0F := by decide
theorem test_crc16_check :
    crc16 [0x31, 0x32, 0x33, 0x34, 0x35, 0x36, 0x37, 0x38, 0x39] 0xFFFF = 0x29B1 := by decide +kernel
theorem test_crc16_order :
    crc16 [0x12, 0x34] 0xFFFF = 0x0EC9 ∧ crc16 [0x34, 0x12] 0xFFFF = 0xE62D := by decide +kernel
theorem test_crc16_chained : crc16 [0x36, 0x37, 0x38, 0x39] 0x4560 = 0x29B1 := by decide +kernel

/-! ### The codec functions (95_test_vectors.md section 3.1) -/

theorem test_encodeTrailer : encodeTrailer 0xBEEF 0x29B1 = #v[0xEF, 0xBE, 0xB1, 0x29] := by decide
theorem test_decodeTrailer : decodeTrailer #v[0x02, 0x01, 0x04, 0x03] = ⟨0x0102, 0x0304⟩ := by decide

/-! ### One step of each command -/

/-- Section 4: the only NOP. -/
theorem test_nop : answers full 0x00000000 false 0 := by decide
theorem test_nop_changes_nothing : after .nop full = { full with outbox := [⟨false, 0⟩] } := by decide
/-- R50's example, from reset. -/
theorem test_crcSeed :
    (after (.crcSeed 0xFFFF) .reset).acc = 0xFFFF ∧ (after (.crcSeed 0xFFFF) .reset).accV = true := by
  decide
/-- A seed is legal mid-message (R50). -/
theorem test_crcSeed_again : (after (.crcSeed 0x1D0F) full).acc = 0x1D0F := by decide
/-- R51's example. -/
theorem test_crcByte : (after (.crcByte 0x01) full).acc = 0xF1D1 := by decide
/-- Section 5: no seed since reset. -/
theorem test_crcByte_unseeded : answers .reset 0x20000001 true 3 := by decide
theorem test_crcRead : answers full 0x30000000 false 0x0000FFFF := by decide
theorem test_crcRead_unseeded : answers .reset 0x30000000 true 3 := by decide
/-- Section 3.2: the row `TRL_SET_NID 0xBEEF`. -/
theorem test_trlSetNid :
    (after (.trlSetNid 0xBEEF) .reset).trV = 0b0011 ∧
    answers (after (.trlSetNid 0xBEEF) .reset) 0x81000000 false 0xBE := by decide
theorem test_trlSetNid_over : (after (.trlSetNid 0x0102) full).tr = #v[0x02, 0x01, 0xAD, 0xAD] := by decide
/-- Section 3.2: the row `TRL_SET_CRC 0x29B1`. -/
theorem test_trlSetCrc :
    (after (.trlSetCrc 0x29B1) .reset).trV = 0b1100 ∧
    answers (after (.trlSetCrc 0x29B1) .reset) 0x83000000 false 0x29 := by decide
theorem test_trlSetCrc_over : (after (.trlSetCrc 0x29B1) full).tr = #v[0x34, 0x12, 0xB1, 0x29] := by decide
/-- The end of program P4: `ACC = 0x29B1` gives `TR[2] = 0xB1`, `TR[3] = 0x29`. -/
theorem test_trlCrcFromAcc :
    (after .trlCrcFromAcc { State.reset with acc := 0x29B1, accV := true }).tr = #v[0x00, 0x00, 0xB1, 0x29] := by decide
/-- Section 5: `TR_V` stays 0b0000. -/
theorem test_trlCrcFromAcc_unseeded :
    answers .reset 0x60000000 true 3 ∧ (after .trlCrcFromAcc .reset).trV = 0b0000 := by decide
/-- R64's example. -/
theorem test_trlWriteByte :
    (after (.trlWriteByte 2 0xB1) .reset).trV = 0b0100 ∧
    answers (after (.trlWriteByte 2 0xB1) .reset) 0x82000000 false 0xB1 := by decide
/-- Program P7, line 1. -/
theorem test_trlWriteByte_over : (after (.trlWriteByte 0 0x11) full).tr = #v[0x11, 0x12, 0xAD, 0xAD] := by decide
theorem test_trlReadByte : answers full 0x83000000 false 0x000000AD := by decide
/-- Section 5: nothing written. -/
theorem test_trlReadByte_incomplete : answers .reset 0x80000000 true 4 := by decide
theorem test_trlReadNid : answers full 0x90000000 false 0x00001234 := by decide
/-- Section 3.2: only the CRC bytes valid. -/
theorem test_trlReadNid_incomplete : answers { full with trV := 0b1100 } 0x90000000 true 4 := by decide
/-- R66's example. -/
theorem test_trlReadCrc :
    answers { full with tr := #v[0, 0, 0xB1, 0x29], trV := 0b1100 } 0xA0000000 false 0x29B1 := by
  decide
/-- Section 3.2: only the bytes 0, 1 and 2 valid. -/
theorem test_trlReadCrc_incomplete : answers { full with trV := 0b0111 } 0xA0000000 true 4 := by decide
/-- R67's example. -/
theorem test_trlDecode :
    answers { full with tr := #v[0xEF, 0xBE, 0xB1, 0x29] } 0xD0000000 false 0x29B1BEEF := by decide
theorem test_trlDecode_incomplete : answers { full with trV := 0b1110 } 0xD0000000 true 4 := by decide
/-- Section 3.2, the row that ends in `TRL_CLEAR`: every trailer read faults after it. -/
theorem test_trlClear : answers (after .trlClear full) 0x83000000 true 4 := by decide
theorem test_trlClear_keeps_acc :
    (after .trlClear full).acc = 0xFFFF ∧ (after .trlClear full).accV = true := by decide
theorem test_statRead : answers full 0xC0000000 false 0x0000001F := by decide
/-- R72's example: `ERR = 3`, `ACC_V = 1`, `TR_V = 0`. -/
theorem test_statRead_err :
    answers { State.reset with accV := true, err := 3 } 0xC0000000 false 0x00000310 := by decide

/-! ### Faults and reset (95_test_vectors.md sections 4 and 5) -/

theorem test_reserved_opcode : answers full 0xEFFFFFFF true 1 ∧ answers full 0xF0000000 true 1 := by decide
/-- Nonzero reserved bits come before the missing seed. -/
theorem test_reserved_bits_first : answers .reset 0x20000101 true 2 := by decide
/-- After a faulted `CRC_READ`, a second fault keeps `ERR = 3`, and a success does not clear it. -/
theorem test_first_error_kept :
    (after .trlDecode (after .crcRead .reset)).err = 3 ∧ (after (.crcSeed 0xFFFF) (after .crcRead .reset)).err = 3 := by
  decide
/-- Reset during a command: no response, and the state after reset (70_reset_and_hazards.md R88). -/
theorem test_reset_during :
    next (step { full with err := 2, inbox := [.resetDuring 0x20000001, .command 0] }) fun t =>
      t.accV == false && t.trV == 0 && t.err == 0 && t.outbox == [] && t.inbox == [.command 0] := by decide

/-! ### Witnesses: each obligation's hypotheses met by a concrete state and operands, every clause -/

theorem witness_NopOnlyResponds :
    (0x00000000#32).extractLsb' 28 4 = 0x0#4 ∧ (0x00000001#32).extractLsb' 28 4 = 0x0#4 := by decide

theorem witness_CrcSeedLoadsAcc :
    (0x1000FFFF#32).extractLsb' 28 4 = 0x1#4 ∧ (0x14000000#32).extractLsb' 28 4 = 0x1#4 := by decide

theorem witness_CrcByteStepsAcc :
    full.accV = true ∧ State.reset.accV = false ∧
    (0x200000FF#32).extractLsb' 28 4 = 0x2#4 ∧ (0x20000100#32).extractLsb' 28 4 = 0x2#4 := by decide

theorem witness_CrcReadRespondsAcc :
    full.accV = true ∧ State.reset.accV = false ∧
    (0x30000000#32).extractLsb' 28 4 = 0x3#4 ∧ (0x38000000#32).extractLsb' 28 4 = 0x3#4 := by decide

theorem witness_TrlSetNidWritesLowPair :
    (0x4000FFFF#32).extractLsb' 28 4 = 0x4#4 ∧ (0x40010000#32).extractLsb' 28 4 = 0x4#4 := by decide

theorem witness_TrlSetCrcWritesHighPair :
    (0x5000FFFF#32).extractLsb' 28 4 = 0x5#4 ∧ (0x58000000#32).extractLsb' 28 4 = 0x5#4 := by decide

theorem witness_TrlCrcFromAccCopiesAcc :
    full.accV = true ∧ State.reset.accV = false ∧
    (0x60000000#32).extractLsb' 28 4 = 0x6#4 ∧ (0x60000001#32).extractLsb' 28 4 = 0x6#4 := by decide

theorem witness_TrlReadByteRespondsByte :
    ({ full with trV := 0b1000 } : State).trV.getLsbD (3 : Fin 4) = true ∧
    ({ full with trV := 0b1000 } : State).trV.getLsbD (0 : Fin 4) = false ∧
    (0x83000000#32).extractLsb' 28 4 = 0x8#4 ∧ (0x84000000#32).extractLsb' 28 4 = 0x8#4 := by decide

theorem witness_TrlWriteByteWritesByte :
    (0x730000FF#32).extractLsb' 28 4 = 0x7#4 ∧ (0x73000100#32).extractLsb' 28 4 = 0x7#4 := by decide

theorem witness_TrlReadNidRespondsNid :
    ({ full with trV := 0b0011 } : State).trV.extractLsb' 0 2 = 0b11#2 ∧
    ({ full with trV := 0b1101 } : State).trV.extractLsb' 0 2 ≠ 0b11#2 ∧
    (0x90000000#32).extractLsb' 28 4 = 0x9#4 ∧ (0x91000000#32).extractLsb' 28 4 = 0x9#4 := by decide

theorem witness_TrlReadCrcRespondsCrc :
    ({ full with trV := 0b1100 } : State).trV.extractLsb' 2 2 = 0b11#2 ∧
    ({ full with trV := 0b0111 } : State).trV.extractLsb' 2 2 ≠ 0b11#2 ∧
    (0xA0000000#32).extractLsb' 28 4 = 0xA#4 ∧ (0xA0000001#32).extractLsb' 28 4 = 0xA#4 := by decide

theorem witness_TrlDecodeRespondsTrailer :
    full.trV = 0b1111#4 ∧ ({ full with trV := 0b0111 } : State).trV ≠ 0b1111#4 ∧
    (0xD0000000#32).extractLsb' 28 4 = 0xD#4 ∧ (0xD8000000#32).extractLsb' 28 4 = 0xD#4 := by decide

theorem witness_TrlClearUnwritesTrailer :
    (∃ i : Instr, i = .trlReadNid ∨ i = .trlReadCrc ∨ i = .trlDecode ∨ ∃ j, i = .trlReadByte j) ∧
    (0xB0000000#32).extractLsb' 28 4 = 0xB#4 ∧ (0xB0000001#32).extractLsb' 28 4 = 0xB#4 :=
  ⟨⟨.trlReadByte 3, .inr (.inr (.inr ⟨3, rfl⟩))⟩, by decide, by decide⟩

/-- The clause on later steps: bytes 0 and 3 are not valid, the word writes byte 1, and a read needs them. -/
theorem witness_TrlClearUnwritesTrailer_later :
    State.reset.trV.getLsbD (0 : BitVec 2).toNat = false ∧ State.reset.trV.getLsbD (3 : BitVec 2).toNat = false ∧
    (∃ t, step (State.reset.offerWord 0x71000056) = .next t) ∧
    (∀ w rest i, (State.reset.offerWord 0x71000056).inbox = .command w :: rest → decode w = .command i →
      writesTrailerByte i 0 = false ∧ writesTrailerByte i 3 = false) ∧
    needsTrailerByte .trlDecode 0 = true ∧ needsTrailerByte .trlDecode 3 = true := by
  refine ⟨by decide, by decide, ⟨_, rfl⟩, fun w rest i h hd => ?_, by decide, by decide⟩
  injection h with h
  injection h with h
  subst h
  rw [show decode 0x71000056 = .command (.trlWriteByte 1 0x56) by decide] at hd
  cases hd
  decide

theorem witness_StatReadRespondsStatus :
    (0xC0000000#32).extractLsb' 28 4 = 0xC#4 ∧ (0xC0000010#32).extractLsb' 28 4 = 0xC#4 := by decide

/-- `CRC_BYTE` offered to the block after reset: the step answers, and the word is no seed. -/
theorem witness_UnseededFaultsExactly :
    State.reset.accV = false ∧ (∃ t, step (State.reset.offerWord 0x20000001) = .next t) ∧
    ∀ v rest, (State.reset.offerWord 0x20000001).inbox ≠ .command (encode (.crcSeed v)) :: rest := by
  refine ⟨rfl, ⟨_, rfl⟩, fun v rest h => ?_⟩
  injection h with h
  injection h with h
  have h := congrArg (BitVec.extractLsb' 28 4) h
  rw [show BitVec.extractLsb' 28 4 (encode (.crcSeed v)) = 0x1#4 from opField_commandWord 0x1 0 v] at h
  exact absurd h (by decide)

theorem witness_ReservedOpcodeFaults :
    (full.offerWord 0xE0000000).inbox = [.command 0xE0000000] ∧ (0xE0000000#32).extractLsb' 28 4 = 0xE#4 ∧
    (full.offerWord 0xFFFFFFFF).inbox = [.command 0xFFFFFFFF] ∧ (0xFFFFFFFF#32).extractLsb' 28 4 = 0xF#4 := by decide

theorem witness_ReservedBitsFault :
    (full.offerWord 0x20000101).inbox = [.command 0x20000101] ∧ Instr.row (.crcByte 0) ∈ opcodeMap ∧
    (0x20000101#32).extractLsb' 28 4 = (Instr.row (.crcByte 0)).pattern.extractLsb' 28 4 ∧
    0x20000101#32 &&& (Instr.row (.crcByte 0)).mask ≠ (Instr.row (.crcByte 0)).pattern := by decide

/-- One word for each branch: the four checks and success. -/
theorem witness_ChecksRunInOrder :
    (State.reset.offerWord 0xE0000001).inbox = [.command 0xE0000001] ∧ answers .reset 0xE0000001 true 1 ∧
    answers .reset 0x20000101 true 2 ∧ answers .reset 0x60000000 true 3 ∧ answers .reset 0x83000000 true 4 ∧
    answers .reset 0x1000FFFF false 0 := by decide

theorem witness_FaultChangesOnlyErr :
    ({ State.reset with inbox := [.command 0x30000000, .command 0x1000FFFF] } : State).inbox =
      [.command 0x30000000, .command 0x1000FFFF] ∧
    (∃ t, step (State.reset.offerWord 0x30000000) = .next t ∧ t.outbox = [] ++ [⟨true, 3⟩]) ∧
    decode 0x1000FFFF = .command (.crcSeed 0xFFFF) := ⟨rfl, ⟨_, rfl, by decide⟩, by decide⟩

theorem witness_OneResponsePerCommandWord : (full.offerWord 0xC0000000).inbox = [.command 0xC0000000] := by decide

theorem witness_EncodeOfDecode : decode 0x1000FFFF = .command (.crcSeed 0xFFFF) := by decide

theorem witness_OpcodeMapSelects :
    Instr.row (.trlReadByte 0) ∈ opcodeMap ∧
    0x83000000#32 &&& (Instr.row (.trlReadByte 0)).mask = (Instr.row (.trlReadByte 0)).pattern := by decide

theorem witness_StepRunsDecodedCommand :
    (full.offerWord 0x20000041).inbox = [.command 0x20000041] ∧ decode 0x20000041 = .command (.crcByte 0x41) := by decide

theorem witness_NoEventNoChange : full.inbox = [] := by decide

theorem witness_CommandsRunInOrder : full.inbox = [] := by decide

/-- Both forms of reset, and a step that clears `ERR`. -/
theorem witness_ResetClearsState :
    ({ full with inbox := [.reset] } : State).inbox = [.reset] ∧
    ({ full with inbox := [.resetDuring 0] } : State).inbox = [.resetDuring 0] ∧
    (∃ t, step { full with err := 3, inbox := [.reset] } = .next t ∧ t.err = 0x0#4) := ⟨rfl, rfl, _, rfl, rfl⟩

/-- A seed, a byte, and a word that is neither; a state with no event; a command that does not read `ACC`. -/
theorem witness_AccWritersAndReaders :
    (∃ t, step (full.offerWord 0x1000ABCD) = .next t) ∧ decode 0x1000ABCD = .command (.crcSeed 0xABCD) ∧
    (∃ t, step (full.offerWord 0x20000041) = .next t) ∧ decode 0x20000041 = .command (.crcByte 0x41) ∧
    (∃ t, step (full.offerWord 0xFFFFFFFF) = .next t) ∧ decode 0xFFFFFFFF = .illegalOp ∧
    (full.inbox = [] ∧ ∃ t, step full = .next t) ∧
    (Instr.statRead ≠ .crcRead ∧ Instr.statRead ≠ .trlCrcFromAcc ∧ ∀ b, Instr.statRead ≠ .crcByte b) :=
  ⟨⟨_, rfl⟩, by decide, ⟨_, rfl⟩, by decide, ⟨_, rfl⟩, by decide, ⟨rfl, _, rfl⟩, by decide, by decide, nofun⟩

theorem witness_AccVWriters :
    (∃ t, step (State.reset.offerWord 0x1000ABCD) = .next t) ∧ decode 0x1000ABCD = .command (.crcSeed 0xABCD) ∧
    (∃ t, step (State.reset.offerWord 0x30000000) = .next t) ∧ decode 0x30000000 = .command .crcRead ∧
    ({ full with inbox := [.reset] } : State).inbox = [.reset] ∧
    (full.inbox = [] ∧ ∃ t, step full = .next t) ∧ State.reset.accV = false :=
  ⟨⟨_, rfl⟩, by decide, ⟨_, rfl⟩, by decide, rfl, ⟨rfl, _, rfl⟩, rfl⟩

/-- One command, one rejected word, a reset, and a byte a command needs that is not valid, at both ends of its range. -/
theorem witness_TrVWriters :
    (∃ t, exec (.trlWriteByte 3 0) State.reset = .next t) ∧
    (∃ t, step (full.offerWord 0x00000001) = .next t) ∧ (∀ i, decode 0x00000001 ≠ .command i) ∧
    ({ full with inbox := [.reset] } : State).inbox = [.reset] ∧
    needsTrailerByte .trlReadCrc 3 = true ∧ needsTrailerByte .trlReadNid 0 = true ∧
    State.reset.trV.getLsbD (3 : BitVec 2).toNat = false :=
  ⟨⟨_, rfl⟩, ⟨_, rfl⟩, by rw [show decode 0x00000001 = .rsvNonzero by decide]; nofun, rfl, by decide, by decide, by decide⟩

/-- A fault while `ERR` is 0, a fault while it is not, and a success. -/
theorem witness_FirstErrorIsKept :
    (∃ t, step (State.reset.offerWord 0x30000000) = .next t ∧ t.outbox = [] ++ [⟨true, 3⟩]) ∧
    (∃ t, step (({ State.reset with err := 4 } : State).offerWord 0x30000000) = .next t) ∧
    (∃ t, step (full.offerWord 0x00000000) = .next t ∧ t.outbox = [] ++ [⟨false, 0⟩]) ∧
    ({ full with inbox := [.resetDuring 0] } : State).inbox = [.resetDuring 0] ∧
    (full.inbox = [] ∧ ∃ t, step full = .next t) :=
  ⟨⟨_, rfl, by decide⟩, ⟨_, rfl⟩, ⟨_, rfl, by decide⟩, rfl, rfl, _, rfl⟩

theorem witness_ReadsAreIdempotent :
    ∃ i : Instr, i = .crcRead ∨ (∃ j, i = .trlReadByte j) ∨ i = .trlReadNid ∨ i = .trlReadCrc ∨ i = .trlDecode ∨
      i = .statRead := ⟨.trlReadByte 3, .inr (.inl ⟨3, rfl⟩)⟩

theorem witness_CrcIsLinear : [0x12#8, 0x34, 0x56].length = [0xA5#8, 0x5A, 0xFF].length := by decide

/-- The last bit of the last byte of the source's payload. -/
theorem witness_SingleBitErrorChangesCrc : 2 < [0x01#8, 0x02, 0x03].length ∧ 7 < 8 := by decide

/-- A byte, a word that is no command and a status read: none is a seed. -/
theorem witness_CommandSequenceComputesCrc :
    State.reset.inbox = [] ∧
    ∀ w ∈ [0x20000041#32, 0xFFFFFFFF#32, 0xC0000000#32], ∀ v, decode w ≠ .command (.crcSeed v) := by
  refine ⟨rfl, fun w hw => ?_⟩
  simp only [List.mem_cons, List.not_mem_nil, or_false] at hw
  rcases hw with rfl | rfl | rfl
  · rw [show decode 0x20000041#32 = .command (.crcByte 0x41) by decide]; nofun
  · rw [show decode 0xFFFFFFFF#32 = .illegalOp by decide]; nofun
  · rw [show decode 0xC0000000#32 = .command .statRead by decide]; nofun

theorem witness_CarriedOverAccumulator : full.accV = true := by decide

theorem witness_TrailerCrcIsSnapshot : full.accV = true := by decide

theorem witness_MixedWidthViewsAgree :
    ({ full with trV := 0b1101 } : State).trV.getLsbD 0 ≠ ({ full with trV := 0b1101 } : State).trV.getLsbD 1 ∧
    ({ full with trV := 0b0111 } : State).trV.getLsbD 2 ≠ ({ full with trV := 0b0111 } : State).trV.getLsbD 3 := by decide

theorem witness_AckEchoesTrailer : full.trV = 0b1111#4 ∧ ({ full with tr := #v[1, 2, 3, 4] } : State).trV = 0b1111#4 := by
  decide

theorem witness_StaleTrailerBytesMix :
    full.trV = 0b1111#4 ∧ ({ full with trV := 0b1100 } : State).trV.extractLsb' 2 2 = 0b11#2 := by decide

theorem witness_PseudoCommandsRealiseOperations : full.inbox = [] ∧ full.accV = true := by decide

/-- The source's example frame `01 02 03 34 12 AD AD` (95_test_vectors.md section 1.1), and the frame of an empty
payload under `no_crc`. -/
theorem witness_FrameIsBuiltAndChecked :
    full.inbox = [] ∧ frameBytes false 0x1234 [0x01, 0x02, 0x03] = [0x01, 0x02, 0x03] ++ [0x34, 0x12, 0xAD, 0xAD] ∧
    frameBytes true 0x0102 [] = [] ++ [0x02, 0x01, 0x00, 0x00] := by decide +kernel

/-- A state with a code recorded and an error response behind it, and a word that faults. -/
theorem witness_StepKeepsCodesListed :
    CodesListed { State.reset with err := 4, outbox := [⟨true, 4⟩], inbox := [.command 0xE0000000] } ∧
    ∃ t, step { State.reset with err := 4, outbox := [⟨true, 4⟩], inbox := [.command 0xE0000000] } = .next t :=
  ⟨⟨by decide, by decide⟩, _, rfl⟩

/-- One response before the last reset, an error and a success since; the step takes a word, and a reset. -/
theorem witness_StepKeepsErrFirstSinceReset :
    (∀ rest, [PortEvent.command 0xE0000000] ≠ .reset :: rest) ∧
    (∀ w rest, [PortEvent.command 0xE0000000] ≠ .resetDuring w :: rest) ∧
    ErrIsFirstSince [⟨true, 4⟩]
      { State.reset with err := 3, outbox := [⟨true, 4⟩, ⟨true, 3⟩, ⟨false, 0⟩], inbox := [.command 0xE0000000] } ∧
    (∃ t, step { State.reset with
      err := 3, outbox := [⟨true, 4⟩, ⟨true, 3⟩, ⟨false, 0⟩], inbox := [.command 0xE0000000] } = .next t) ∧
    ErrIsFirstSince [] { State.reset with err := 4, outbox := [⟨true, 4⟩], inbox := [.reset] } ∧
    (∃ t, step { State.reset with err := 4, outbox := [⟨true, 4⟩], inbox := [.reset] } = .next t) :=
  ⟨nofun, nofun, ⟨[⟨true, 3⟩, ⟨false, 0⟩], rfl, by decide, by decide⟩, ⟨_, rfl⟩, ⟨[⟨true, 4⟩], rfl, by decide, by decide⟩, ⟨_, rfl⟩⟩

theorem witness_ErrRecordsFirstErrorOfRun : NoFaultRecorded .reset ∧ State.reset.inbox = [] := by decide

/-- Two states that differ in `ACC` and in the bytes 2 and 3, which hold no value in either. -/
theorem witness_UnwrittenRegistersUnobservable :
    SameValues { full with accV := false, trV := 0b0011 }
      { full with accV := false, trV := 0b0011, acc := 0x1234, tr := #v[0x34, 0x12, 0, 1] } :=
  ⟨rfl, rfl, rfl, rfl, rfl, nofun, by decide⟩

end Sys2Proof.Tests
end

section
/-! Non-interference of the registers that hold no value (00_scope.md R8): every operation of the block takes two
states that differ only in such registers to two states that differ only so, hence so does every step. -/

namespace Sys2Proof.Safety

open Sys2Proof.Machine

/-! ### The updates of the state -/

/-- With `TR_V` zero no trailer byte holds a value. -/
theorem not_trailerByteValid_of_trV_zero {s : State} (h : s.trV = 0#4) (i : BitVec 2) : ¬ TrailerByteValid s i := by
  simp [h]

theorem SameValues.takeEvent {s t : State} (h : SameValues s t) (rest : List PortEvent) :
    SameValues (s.takeEvent rest) (t.takeEvent rest) :=
  { h with inbox := rfl }

theorem SameValues.respond {s t : State} (h : SameValues s t) (v : Word) : SameValues (s.respond v) (t.respond v) :=
  { h with outbox := by simp [h.outbox] }

theorem SameValues.raiseFault {s t : State} (h : SameValues s t) (c : ErrorCode) :
    SameValues (s.raiseFault c) (t.raiseFault c) :=
  { h with err := by simp [h.err], outbox := by simp [h.outbox] }

theorem SameValues.setAcc {s t : State} (h : SameValues s t) (v : BitVec 16) : SameValues (s.setAcc v) (t.setAcc v) :=
  { h with acc := fun _ => rfl }

theorem SameValues.seedAcc {s t : State} (h : SameValues s t) (v : BitVec 16) :
    SameValues (s.seedAcc v) (t.seedAcc v) :=
  { h with accV := rfl, acc := fun _ => rfl }

/-- The byte written is the same in both states; another byte that is valid after the write was valid before it. -/
theorem SameValues.putTrByte {s t : State} (h : SameValues s t) (i : BitVec 2) (b : BitVec 8) :
    SameValues (s.putTrByte i b) (t.putTrByte i b) :=
  { h with
    trV := by simp [h.trV]
    tr := by
      intro j hj
      by_cases hji : j = i
      · subst hji
        simp
      · have hs : TrailerByteValid s j := by
          rw [TrailerByteValid, State.putTrByte_trV, getLsbD_or_byteMask] at hj
          simpa [Ne.symm hji] using hj
        rw [State.trByte_putTrByte_ne s b hji, State.trByte_putTrByte_ne t b hji, h.tr j hs] }

theorem SameValues.putNid {s t : State} (h : SameValues s t) (v : BitVec 16) : SameValues (s.putNid v) (t.putNid v) :=
  (h.putTrByte _ _).putTrByte _ _

theorem SameValues.putTcrc {s t : State} (h : SameValues s t) (v : BitVec 16) :
    SameValues (s.putTcrc v) (t.putTcrc v) :=
  (h.putTrByte _ _).putTrByte _ _

/-- The two states may draw different free values (log entry 4); no byte is valid, so none is compared. -/
theorem SameValues.clearTrailer {s t : State} (h : SameValues s t) : SameValues s.clearTrailer t.clearTrailer :=
  { h with
    trV := rfl
    tr := fun i hi => absurd hi (not_trailerByteValid_of_trV_zero rfl i) }

/-- After a reset every register has its reset value; only the port is the states' own. -/
theorem SameValues.applyReset {s t : State} (h : SameValues s t) : SameValues s.applyReset t.applyReset where
  accV := rfl
  trV := rfl
  err := rfl
  inbox := h.inbox
  outbox := h.outbox
  acc _ := rfl
  tr _ _ := rfl

/-! ### Reading bytes that hold values -/

/-- Where every byte of a mask holds a value, the two states agree on each of them. -/
theorem SameValues.trByte_eq {s t : State} (h : SameValues s t) {need : BitVec 4} (hv : allValid s.trV need = true)
    (i : BitVec 2) (hi : need.getLsbD i.toNat = true) : s.trByte i = t.trByte i :=
  h.tr i ((allValid_iff _ _).mp hv i hi)

theorem SameValues.nid_eq {s t : State} (h : SameValues s t) (hv : allValid s.trV nidMask = true) : s.nid = t.nid := by
  rw [State.nid, State.nid, h.trByte_eq hv 0#2 (by decide), h.trByte_eq hv 1#2 (by decide)]

theorem SameValues.tcrc_eq {s t : State} (h : SameValues s t) (hv : allValid s.trV crcMask = true) :
    s.tcrc = t.tcrc := by
  rw [State.tcrc, State.tcrc, h.trByte_eq hv 2#2 (by decide), h.trByte_eq hv 3#2 (by decide)]

theorem SameValues.trailerWord_eq {s t : State} (h : SameValues s t) (hv : allValid s.trV trailerMask = true) :
    s.trailerWord = t.trailerWord := by
  rw [State.trailerWord, State.trailerWord, h.trByte_eq hv 0#2 (by decide), h.trByte_eq hv 1#2 (by decide),
    h.trByte_eq hv 2#2 (by decide), h.trByte_eq hv 3#2 (by decide)]

/-! ### Commands and steps -/

/-- Both results are next states, and these differ at most in registers that hold no value. -/
def SameResult (r q : Result) : Prop := ∃ s t, r = .next s ∧ q = .next t ∧ SameValues s t

theorem SameValues.sameResult {s t : State} (h : SameValues s t) : SameResult (.next s) (.next t) :=
  ⟨s, t, rfl, rfl, h⟩

/-- A command that reads `ACC` runs on a common value, or raises `E_UNSEEDED` in both states (60_exceptions.md R78). -/
theorem SameValues.withAcc {s t : State} (h : SameValues s t) {k l : BitVec 16 → State}
    (hk : ∀ a, SameValues (k a) (l a)) : SameResult (s.withAcc k) (t.withAcc l) := by
  cases hv : s.accV with
  | true =>
    rw [State.withAcc_of_valid hv, State.withAcc_of_valid (h.accV ▸ hv), h.acc hv]
    exact (hk t.acc).sameResult
  | false =>
    rw [State.withAcc_of_invalid hv, State.withAcc_of_invalid (h.accV ▸ hv)]
    exact (h.raiseFault _).sameResult

/-- A command that reads trailer bytes responds with a value the two states share while the bytes hold values, or
raises `E_TRL_INCOMPLETE` in both (60_exceptions.md R79). -/
theorem SameValues.withTrailer {s t : State} (h : SameValues s t) {need : BitVec 4} {v w : Word}
    (hvw : allValid s.trV need = true → v = w) :
    SameResult (s.withTrailer need (s.respond v)) (t.withTrailer need (t.respond w)) := by
  cases hv : allValid s.trV need with
  | true =>
    rw [State.withTrailer_of_valid hv, State.withTrailer_of_valid (h.trV ▸ hv), hvw hv]
    exact (h.respond w).sameResult
  | false =>
    rw [State.withTrailer_of_invalid hv, State.withTrailer_of_invalid (h.trV ▸ hv)]
    exact (h.raiseFault _).sameResult

theorem SameValues.exec {s t : State} (h : SameValues s t) (i : Instr) : SameResult (exec i s) (exec i t) := by
  cases i with
  | nop => exact (h.respond _).sameResult
  | crcSeed v => exact ((h.seedAcc v).respond _).sameResult
  | crcByte b => exact h.withAcc fun a => (h.setAcc (crcStep a b)).respond _
  | crcRead => exact h.withAcc fun a => h.respond _
  | trlSetNid v => exact ((h.putNid v).respond _).sameResult
  | trlSetCrc v => exact ((h.putTcrc v).respond _).sameResult
  | trlCrcFromAcc => exact h.withAcc fun a => (h.putTcrc a).respond _
  | trlWriteByte j b => exact ((h.putTrByte j b).respond _).sameResult
  | trlReadByte j => exact h.withTrailer fun hv => by rw [h.tr j ((allValid_byteMask _ _).symm.trans hv)]
  | trlReadNid => exact h.withTrailer fun hv => by rw [h.nid_eq hv]
  | trlReadCrc => exact h.withTrailer fun hv => by rw [h.tcrc_eq hv]
  | trlClear => exact (h.clearTrailer.respond _).sameResult
  | statRead =>
    -- The status word is made of `ERR` and the validity bits alone, which the two states share.
    have hword : statusWord s.err s.accV s.trV = statusWord t.err t.accV t.trV := by rw [h.err, h.accV, h.trV]
    rw [Machine.exec, Machine.exec, execStatRead, execStatRead, hword]
    exact (h.respond _).sameResult
  | trlDecode => exact h.withTrailer h.trailerWord_eq

theorem SameValues.runWord {s t : State} (h : SameValues s t) (w : Word) : SameResult (runWord w s) (runWord w t) := by
  cases hd : decode w with
  | command i =>
    rw [runWord_of_command hd, runWord_of_command hd]
    exact h.exec i
  | rsvNonzero =>
    rw [runWord_of_rsvNonzero hd, runWord_of_rsvNonzero hd]
    exact (h.raiseFault _).sameResult
  | illegalOp =>
    rw [runWord_of_illegalOp hd, runWord_of_illegalOp hd]
    exact (h.raiseFault _).sameResult

theorem step_of_idle {s : State} (h : s.inbox = []) : step s = .next s := by
  rw [step, h]
  rfl

/-- The two states see the same events, so they take the same kind of step. -/
theorem SameValues.step {s t : State} (h : SameValues s t) : SameResult (step s) (step t) := by
  rcases step_cases s with ⟨hs, hstep⟩ | ⟨w, rest, hs, hstep⟩ | ⟨rest, hs, hstep⟩ | ⟨w, rest, hs, hstep⟩
  all_goals
    rw [hstep]
    have ht := h.inbox.symm.trans hs
  · rw [step_of_idle ht]
    exact h.sameResult
  · rw [step_of_command ht]
    exact (h.takeEvent rest).runWord w
  · rw [step_of_reset (.inl ht)]
    exact (h.takeEvent rest).applyReset.sameResult
  · rw [step_of_reset (.inr ⟨w, ht⟩)]
    exact (h.takeEvent rest).applyReset.sameResult

/-- `ACC` and `TR` hold no value in the reset state, whatever stands in them (10_state.md R23, log entry 3). -/
theorem sameValues_reset (a : BitVec 16) (bytes : Vector (BitVec 8) 4) :
    SameValues State.reset { State.reset with acc := a, tr := bytes } where
  accV := rfl
  trV := rfl
  err := rfl
  inbox := rfl
  outbox := rfl
  acc := nofun
  tr i hi := absurd hi (not_trailerByteValid_of_trV_zero rfl i)

/-- Settles O55: `SameValues` is kept by every operation on the state, hence by every command and every step. -/
theorem unwrittenRegistersUnobservable : Obligations.UnwrittenRegistersUnobservable :=
  ⟨fun _ _ h => h.step, sameValues_reset⟩

end Sys2Proof.Safety
end

section
/-! What each command answers under each of its guards (60_exceptions.md R78 to R80), so that a fact about all commands
is a fact about one fault and about `State.effect`. -/

namespace Sys2Proof.Machine

open Sys2Proof.Safety (readsAcc needsTrailerByte TrailerByteValid step_of_idle)

/-- The registers a command writes when none of its checks fails (10_state.md R12 to R16); a command that writes none
leaves the state. -/
def State.effect (s : State) : Instr → State
  | .crcSeed v => s.seedAcc v
  | .crcByte b => s.setAcc (crcStep s.acc b)
  | .trlSetNid v => s.putNid v
  | .trlSetCrc v => s.putTcrc v
  | .trlCrcFromAcc => s.putTcrc s.acc
  | .trlWriteByte j b => s.putTrByte j b
  | .trlClear => s.clearTrailer
  | .nop | .crcRead | .trlReadByte _ | .trlReadNid | .trlReadCrc | .statRead | .trlDecode => s

/-! ### The mask of each trailer read has the bits of the bytes it needs -/

theorem needsTrailerByte_trlReadByte (i j : BitVec 2) :
    needsTrailerByte (.trlReadByte i) j = (byteMask i).getLsbD j.toNat := by
  rw [getLsbD_byteMask, needsTrailerByte, Bool.beq_comm]

theorem needsTrailerByte_trlReadNid (j : BitVec 2) : needsTrailerByte .trlReadNid j = nidMask.getLsbD j.toNat := by
  revert j; decide

theorem needsTrailerByte_trlReadCrc (j : BitVec 2) : needsTrailerByte .trlReadCrc j = crcMask.getLsbD j.toNat := by
  revert j; decide

theorem needsTrailerByte_trlDecode (j : BitVec 2) : needsTrailerByte .trlDecode j = trailerMask.getLsbD j.toNat := by
  revert j; decide

theorem withTrailer_of_needed_valid {s : State} {i : Instr} {need : BitVec 4} (k : State)
    (hneed : ∀ j, needsTrailerByte i j = need.getLsbD j.toNat)
    (h : ∀ j, needsTrailerByte i j = true → TrailerByteValid s j) : s.withTrailer need k = .next k :=
  State.withTrailer_of_valid ((allValid_iff _ _).mpr fun j hj => h j ((hneed j).trans hj)) k

theorem withTrailer_of_needed_invalid {s : State} {i : Instr} {j : BitVec 2} {need : BitVec 4} (k : State)
    (hneed : ∀ j, needsTrailerByte i j = need.getLsbD j.toNat)
    (hj : needsTrailerByte i j = true) (hv : s.trV.getLsbD j.toNat = false) :
    s.withTrailer need k = .next (s.raiseFault .trlIncomplete) := by
  refine State.withTrailer_of_invalid (Bool.eq_false_iff.mpr fun hall => ?_) k
  have hset := (allValid_iff _ _).mp hall j ((hneed j).symm.trans hj)
  exact Bool.false_ne_true (hv.symm.trans hset)

/-! ### The three outcomes of a command -/

theorem exec_eq_withAcc {i : Instr} (hi : readsAcc i = true) (s : State) :
    ∃ k d, exec i s = s.withAcc k ∧ k s.acc = (s.effect i).respond d := by
  cases i with
  | crcByte b => exact ⟨fun acc => (s.setAcc (crcStep acc b)).respond 0, 0, rfl, rfl⟩
  | crcRead => exact ⟨fun acc => s.respond (zext32 acc), zext32 s.acc, rfl, rfl⟩
  | trlCrcFromAcc => exact ⟨fun acc => (s.putTcrc acc).respond 0, 0, rfl, rfl⟩
  | _ => cases hi

/-- The fault of a command that reads `ACC` (60_exceptions.md R78). -/
theorem exec_of_unseeded {i : Instr} {s : State} (hi : readsAcc i = true) (hv : s.accV = false) :
    exec i s = .next (s.raiseFault .unseeded) := by
  obtain ⟨k, d, hk, -⟩ := exec_eq_withAcc hi s
  rw [hk, State.withAcc_of_invalid hv]

theorem exec_of_seeded {i : Instr} {s : State} (hi : readsAcc i = true) (hv : s.accV = true) :
    ∃ v, exec i s = .next ((s.effect i).respond v) := by
  obtain ⟨k, d, hk, heff⟩ := exec_eq_withAcc hi s
  exact ⟨d, by rw [hk, State.withAcc_of_valid hv, heff]⟩

/-- The fault of a command that reads trailer bytes (60_exceptions.md R79). -/
theorem exec_of_trlIncomplete {i : Instr} {s : State} {j : BitVec 2} (hj : needsTrailerByte i j = true)
    (hv : s.trV.getLsbD j.toNat = false) : exec i s = .next (s.raiseFault .trlIncomplete) := by
  cases i with
  | trlReadByte k => exact withTrailer_of_needed_invalid _ (needsTrailerByte_trlReadByte k) hj hv
  | trlReadNid => exact withTrailer_of_needed_invalid _ needsTrailerByte_trlReadNid hj hv
  | trlReadCrc => exact withTrailer_of_needed_invalid _ needsTrailerByte_trlReadCrc hj hv
  | trlDecode => exact withTrailer_of_needed_invalid _ needsTrailerByte_trlDecode hj hv
  | _ => cases hj

/-- With every value it needs present, a command succeeds. -/
theorem exec_of_ready {i : Instr} {s : State} (hacc : readsAcc i = true → s.accV = true)
    (htr : ∀ j, needsTrailerByte i j = true → TrailerByteValid s j) :
    ∃ v, exec i s = .next ((s.effect i).respond v) := by
  cases i with
  | crcByte _ | crcRead | trlCrcFromAcc => exact exec_of_seeded rfl (hacc rfl)
  | trlReadByte k => exact ⟨_, withTrailer_of_needed_valid _ (needsTrailerByte_trlReadByte k) htr⟩
  | trlReadNid => exact ⟨_, withTrailer_of_needed_valid _ needsTrailerByte_trlReadNid htr⟩
  | trlReadCrc => exact ⟨_, withTrailer_of_needed_valid _ needsTrailerByte_trlReadCrc htr⟩
  | trlDecode => exact ⟨_, withTrailer_of_needed_valid _ needsTrailerByte_trlDecode htr⟩
  | nop | crcSeed _ | trlSetNid _ | trlSetCrc _ | trlWriteByte _ _ | trlClear | statRead => exact ⟨_, rfl⟩

/-- Which outcome a command has: the first of its checks that fails, or its effect and one response. -/
theorem exec_outcome (i : Instr) (s : State) :
    (readsAcc i = true ∧ s.accV = false ∧ exec i s = .next (s.raiseFault .unseeded)) ∨
    ((∃ j, needsTrailerByte i j = true ∧ s.trV.getLsbD j.toNat = false) ∧
      exec i s = .next (s.raiseFault .trlIncomplete)) ∨
    ((readsAcc i = true → s.accV = true) ∧ ∃ v, exec i s = .next ((s.effect i).respond v)) := by
  by_cases hacc : readsAcc i = true → s.accV = true
  · by_cases htr : ∀ j, needsTrailerByte i j = true → TrailerByteValid s j
    · exact .inr (.inr ⟨hacc, exec_of_ready hacc htr⟩)
    · push Not at htr
      obtain ⟨j, hj, hv⟩ := htr
      have hv' := Bool.eq_false_iff.mpr hv
      exact .inr (.inl ⟨⟨j, hj, hv'⟩, exec_of_trlIncomplete hj hv'⟩)
  · push Not at hacc
    obtain ⟨hi, hv⟩ := hacc
    have hv' := Bool.eq_false_iff.mpr hv
    exact .inl ⟨hi, hv', exec_of_unseeded hi hv'⟩

/-! ### The outcomes of a word and of an idle step -/

/-- A word that is no command raises a fault (30_encoding.md R42, R43). -/
theorem runWord_of_not_command {w : Word} (hd : ∀ i, decode w ≠ .command i) (s : State) :
    ∃ c, runWord w s = .next (s.raiseFault c) := by
  cases hw : decode w with
  | command i => exact absurd hw (hd i)
  | rsvNonzero => exact ⟨_, runWord_of_rsvNonzero hw s⟩
  | illegalOp => exact ⟨_, runWord_of_illegalOp hw s⟩

/-- Every word is answered by a fault, or by the effect of its command and a success (60_exceptions.md R81). -/
theorem runWord_outcome (w : Word) (s : State) :
    (∃ c, runWord w s = .next (s.raiseFault c)) ∨
    (∃ i v, decode w = .command i ∧ runWord w s = .next ((s.effect i).respond v)) := by
  by_cases hd : ∃ i, decode w = .command i
  · obtain ⟨i, hi⟩ := hd
    rw [runWord_of_command hi]
    rcases exec_outcome i s with ⟨-, -, h⟩ | ⟨-, h⟩ | ⟨-, v, h⟩
    · exact .inl ⟨_, h⟩
    · exact .inl ⟨_, h⟩
    · exact .inr ⟨i, v, hi, h⟩
  · exact .inl (runWord_of_not_command (not_exists.mp hd) s)

/-- No word stops the block (60_exceptions.md R81). -/
theorem exists_runWord_eq_next (w : Word) (s : State) : ∃ t, runWord w s = .next t := by
  rcases runWord_outcome w s with ⟨c, h⟩ | ⟨i, v, -, h⟩
  · exact ⟨_, h⟩
  · exact ⟨_, h⟩

theorem eq_of_step_idle {s t : State} (hs : s.inbox = []) (ht : step s = .next t) : t = s :=
  Host.Outcome.next.inj (ht.symm.trans (step_of_idle hs))

end Sys2Proof.Machine
end

section
/-! `ERR` is the code of the first error response since the last reset (10_state.md R17): kept by the two ways of
answering a word, hence by every step that takes no reset, hence over every run of words. -/

namespace Sys2Proof.Safety

open Sys2Proof.Machine

/-! ### The first error after one more response -/

theorem setWidth_zext32_code (c : ErrorCode) : (zext32 c.code).setWidth 4 = c.code := by
  cases c <;> rfl

theorem firstError_concat_success (rs : List Response) (v : Word) : firstError (rs ++ [⟨false, v⟩]) = firstError rs := by
  induction rs with
  | nil => rfl
  | cons r rs ih => rw [List.cons_append, firstError, firstError, ih]

/-- The sticky update of `ERR` computes the first error: `ERR` is 0 exactly while every response is a success. -/
theorem firstError_concat_fault {rs : List Response} (h : ∀ r ∈ rs, LegalResponse r) (c : ErrorCode) :
    firstError (rs ++ [⟨true, zext32 c.code⟩]) = stickyErr (firstError rs) c := by
  rw [firstError_append]
  split
  next hall => rw [(firstError_eq_zero_iff h).mpr hall, stickyErr_zero, firstError_cons_error, setWidth_zext32_code]
  next hsome => rw [stickyErr_of_ne (mt (firstError_eq_zero_iff h).mp hsome)]

/-! ### The invariant -/

/-- With no fault recorded the responses to come start a new count. -/
theorem errIsFirstSince_outbox {s : State} (h : NoFaultRecorded s) : ErrIsFirstSince s.outbox s :=
  ⟨[], (List.append_nil _).symm, nofun, h⟩

theorem legalResponse_success (v : Word) : LegalResponse ⟨false, v⟩ := nofun

theorem ErrIsFirstSince.respond {base : List Response} {s u : State} (h : ErrIsFirstSince base s)
    (herr : u.err = s.err) (hout : u.outbox = s.outbox) (v : Word) : ErrIsFirstSince base (u.respond v) := by
  obtain ⟨rs, hbase, hlegal, hfirst⟩ := h
  refine ⟨rs ++ [⟨false, v⟩], ?_, ?_, ?_⟩
  · rw [State.respond_outbox, hout, hbase, List.append_assoc]
  · exact List.forall_mem_append.mpr ⟨hlegal, List.forall_mem_singleton.mpr (legalResponse_success v)⟩
  · rw [State.respond_err, herr, hfirst, firstError_concat_success]

theorem ErrIsFirstSince.raiseFault {base : List Response} {s : State} (h : ErrIsFirstSince base s) (c : ErrorCode) :
    ErrIsFirstSince base (s.raiseFault c) := by
  obtain ⟨rs, hbase, hlegal, hfirst⟩ := h
  refine ⟨rs ++ [⟨true, zext32 c.code⟩], ?_, ?_, ?_⟩
  · rw [State.raiseFault_outbox, hbase, List.append_assoc]
  · exact List.forall_mem_append.mpr ⟨hlegal, List.forall_mem_singleton.mpr (legalResponse_fault c)⟩
  · rw [State.raiseFault_err, hfirst, firstError_concat_fault hlegal]

theorem ErrIsFirstSince.runWord {base : List Response} {w : Word} {s t : State} (h : ErrIsFirstSince base s)
    (ht : runWord w s = .next t) : ErrIsFirstSince base t := by
  rcases runWord_cases ht with ⟨c, rfl⟩ | ⟨i, u, v, -, rfl, herr, -, hout, -⟩
  · exact h.raiseFault c
  · exact h.respond herr hout v

/-- A step that takes a command word keeps the invariant: taking the event changes neither `ERR` nor the responses. -/
theorem ErrIsFirstSince.step_command {base : List Response} {w : Word} {rest : List PortEvent} {s t : State}
    (h : ErrIsFirstSince base s) (hs : s.inbox = .command w :: rest) (ht : step s = .next t) :
    ErrIsFirstSince base t := by
  rw [step_of_command hs] at ht
  exact ErrIsFirstSince.runWord (s := s.takeEvent rest) h ht

/-- After a reset the count starts at the responses returned so far. -/
theorem errIsFirstSince_of_step_reset {s t : State} {rest : List PortEvent}
    (hs : s.inbox = .reset :: rest ∨ ∃ w, s.inbox = .resetDuring w :: rest) (ht : step s = .next t) :
    ErrIsFirstSince s.outbox t := by
  rw [step_of_reset hs] at ht
  obtain rfl := Host.Outcome.next.inj ht
  exact errIsFirstSince_outbox (s := (s.takeEvent rest).applyReset) rfl

/-- Settles O56: a command word is answered by a success or a fault, and both keep the invariant. -/
theorem stepKeepsErrFirstSinceReset : Obligations.StepKeepsErrFirstSinceReset := by
  refine fun base s t h ht => ⟨fun hreset hduring => ?_, fun rest hs => errIsFirstSince_of_step_reset hs ht⟩
  rcases step_cases s with ⟨hs, -⟩ | ⟨w, rest, hs, -⟩ | ⟨rest, hs, -⟩ | ⟨w, rest, hs, -⟩
  · rwa [eq_of_step_idle hs ht]
  · exact h.step_command hs ht
  · exact absurd hs (hreset rest)
  · exact absurd hs (hduring w rest)

/-! ### A run of words -/

/-- A command word is taken from the port and answered by one response (30_encoding.md R45). -/
theorem exists_step_command {w : Word} {rest : List PortEvent} {s : State} (hs : s.inbox = .command w :: rest) :
    ∃ t r, step s = .next t ∧ t.inbox = rest ∧ t.outbox = s.outbox ++ [r] := by
  obtain ⟨t, ht⟩ := exists_runWord_eq_next w (s.takeEvent rest)
  rw [step_of_command hs]
  rcases runWord_cases ht with ⟨c, rfl⟩ | ⟨i, u, v, -, rfl, -, hin, hout, -⟩
  · exact ⟨_, _, ht, rfl, rfl⟩
  · exact ⟨_, _, ht, hin, congrArg (· ++ [_]) hout⟩

/-- Words waiting at the port are all taken, one response each, and the invariant is kept. -/
theorem exists_run_words (ws : List Word) : ∀ s : State, s.inbox = ws.map .command →
    ∃ (t : State) (rs : List Response), Host.Core.run Sys2Proof.core ws.length s = .next t ∧
      rs.length = ws.length ∧ t.outbox = s.outbox ++ rs ∧
      ∀ base, ErrIsFirstSince base s → ErrIsFirstSince base t := by
  induction ws with
  | nil => exact fun s _ => ⟨s, [], rfl, rfl, (List.append_nil _).symm, fun _ h => h⟩
  | cons w ws ih =>
    intro s hs
    obtain ⟨u, r, hstep, hin, hout⟩ := exists_step_command hs
    obtain ⟨t, rs, hrun, hlen, hout', hkeep⟩ := ih u hin
    refine ⟨t, r :: rs, ?_, congrArg Nat.succ hlen, ?_, fun base h => hkeep base (h.step_command hs hstep)⟩
    · rw [List.length_cons, core_run_succ hstep, hrun]
    · rw [hout', hout, List.append_assoc, List.singleton_append]

/-- Settles O54: the invariant of O56 over the run, with the responses before the run as its base. -/
theorem errRecordsFirstErrorOfRun : Obligations.ErrRecordsFirstErrorOfRun := by
  intro s ws herr hin
  obtain ⟨t, rs, hrun, hlen, hout, hkeep⟩ := exists_run_words ws (s.issueWords ws) (by simp [hin])
  obtain ⟨rs', hout', hlegal, hfirst⟩ := hkeep s.outbox (errIsFirstSince_outbox (s := s.issueWords ws) herr)
  obtain rfl : rs = rs' := List.append_cancel_left (hout.symm.trans hout')
  refine ⟨t, rs, hrun, hlen, hout, hfirst, ?_⟩
  rw [NoFaultRecorded, hfirst]
  exact firstError_eq_zero_iff hlegal

/-- Settles O34: the reset state has recorded no fault and given no response. -/
theorem resetStateLegal : Obligations.ResetStateLegal :=
  ⟨rfl, rfl, rfl, ⟨by decide, nofun⟩, errIsFirstSince_outbox (s := State.reset) rfl⟩

/-! ### One word -/

/-- `ERR` after a word (10_state.md R17), by the response it gets. -/
theorem err_of_runWord {w : Word} {s t : State} (h : runWord w s = .next t) :
    (s.err ≠ 0#4 → t.err = s.err) ∧
    (∀ d, t.outbox = s.outbox ++ [⟨true, d⟩] → s.err = 0#4 → t.err = d.setWidth 4 ∧ t.err ≠ 0#4) ∧
    (∀ v, t.outbox = s.outbox ++ [⟨false, v⟩] → t.err = s.err) := by
  rcases runWord_cases h with ⟨c, rfl⟩ | ⟨i, u, v, -, rfl, herr, -, hout, -⟩
  · refine ⟨fun hne => stickyErr_of_ne hne c, fun d hd hz => ?_, fun v hv => ?_⟩
    · obtain rfl : zext32 c.code = d := by simpa using hd
      rw [setWidth_zext32_code, State.raiseFault_err]
      exact ⟨by rw [hz, stickyErr_zero], stickyErr_ne_zero _ _⟩
    · simp at hv
  · exact ⟨fun _ => herr, fun d hd => by simp [hout] at hd, fun _ _ => herr⟩

/-- Settles O38: a fault is sticky and a success leaves `ERR`; of the other events only a reset writes it. -/
theorem firstErrorIsKept : Obligations.FirstErrorIsKept := by
  refine ⟨rfl, fun s t w rest hs ht => ?_, fun s rest hs => ⟨_, step_of_reset hs, rfl⟩, fun s t hs ht => ?_⟩
  · rw [step_of_command hs] at ht
    exact err_of_runWord (s := s.takeEvent rest) ht
  · rw [eq_of_step_idle hs ht]

end Sys2Proof.Safety
end

section
/-! Which events write `ACC`, `ACC_V` and `TR_V` (10_state.md R9, R12, R13, R16). -/

namespace Sys2Proof.Safety

open Sys2Proof.Machine

/-! ### No event -/

/-- Settles O30: the step on an empty port is `idle`. -/
theorem noEventNoChange : Obligations.NoEventNoChange := fun _ => step_of_idle

/-! ### `ACC` -/

theorem acc_of_exec_crcByte {b : BitVec 8} {s t : State} (h : exec (.crcByte b) s = .next t) :
    t.acc = if s.accV then crcStep s.acc b else s.acc := by
  rw [exec, execCrcByte] at h
  rcases State.withAcc_cases h with ⟨hv, rfl⟩ | ⟨hv, rfl⟩
  · simp [hv]
  · simp [hv]

theorem acc_of_runWord {w : Word} {s t : State} (h : runWord w s = .next t) :
    (∀ v, decode w = .command (.crcSeed v) → t.acc = v) ∧
    (∀ b, decode w = .command (.crcByte b) → t.acc = if s.accV then crcStep s.acc b else s.acc) ∧
    ((∀ v, decode w ≠ .command (.crcSeed v)) → (∀ b, decode w ≠ .command (.crcByte b)) → t.acc = s.acc) := by
  refine ⟨fun v hd => ?_, fun b hd => ?_, fun hseed hbyte => ?_⟩
  · rw [runWord_of_command hd] at h
    exact congrArg State.acc (Host.Outcome.next.inj h).symm
  · rw [runWord_of_command hd] at h
    exact acc_of_exec_crcByte h
  · rcases runWord_outcome w s with ⟨c, ht⟩ | ⟨i, v, hd, ht⟩ <;>
      obtain rfl := Host.Outcome.next.inj (h.symm.trans ht)
    · rfl
    · cases i with
      | crcSeed x => exact absurd hd (hseed x)
      | crcByte b => exact absurd hd (hbyte b)
      | _ => rfl

/-- Both results are next states, and these differ at most in `ACC`. -/
def SameButAcc (r q : Result) : Prop := ∃ t u : State, r = .next t ∧ q = .next u ∧ u = { t with acc := u.acc }

/-- A trailer read never looks at `ACC`, neither in its check nor in its fault. -/
theorem sameButAcc_withTrailer (s : State) (a : BitVec 16) (need : BitVec 4) (v : Word) :
    SameButAcc (s.withTrailer need (s.respond v)) ((s.setAcc a).withTrailer need ((s.setAcc a).respond v)) := by
  cases hv : allValid s.trV need with
  | true =>
    exact ⟨_, _, State.withTrailer_of_valid hv _, State.withTrailer_of_valid (s := s.setAcc a) hv _, rfl⟩
  | false =>
    exact ⟨_, _, State.withTrailer_of_invalid hv _, State.withTrailer_of_invalid (s := s.setAcc a) hv _, rfl⟩

theorem sameButAcc_exec {i : Instr} (hi : readsAcc i = false) (s : State) (a : BitVec 16) :
    SameButAcc (exec i s) (exec i (s.setAcc a)) := by
  cases i with
  | crcByte _ | crcRead | trlCrcFromAcc => cases hi
  | trlReadByte _ | trlReadNid | trlReadCrc | trlDecode => exact sameButAcc_withTrailer s a _ _
  | nop | crcSeed _ | trlSetNid _ | trlSetCrc _ | trlWriteByte _ _ | trlClear | statRead =>
    exact ⟨_, _, rfl, rfl, rfl⟩

/-- The commands that read `ACC`, by name (10_state.md R12). -/
theorem readsAcc_iff (i : Instr) : readsAcc i = true ↔ (∃ b, i = .crcByte b) ∨ i = .crcRead ∨ i = .trlCrcFromAcc := by
  cases i <;> simp [readsAcc]

/-- Settles O35: the two writers' own effects; every other word leaves `ACC`, and a command that does not read it gives
the same result from any `ACC`. -/
theorem accWritersAndReaders : Obligations.AccWritersAndReaders := by
  refine ⟨fun s t w rest hs ht => ?_, fun s t hs ht => ?_, fun i s a hread hcopy hbyte => ?_⟩
  · rw [step_of_command hs] at ht
    exact acc_of_runWord (s := s.takeEvent rest) ht
  · rw [eq_of_step_idle hs ht]
  · refine sameButAcc_exec (Bool.eq_false_iff.mpr fun hr => ?_) s a
    rcases (readsAcc_iff i).mp hr with ⟨b, hb⟩ | hi | hi
    · exact hbyte b hb
    · exact hread hi
    · exact hcopy hi

/-! ### `ACC_V` -/

theorem accV_of_runWord {w : Word} {s t : State} (h : runWord w s = .next t) :
    (∀ v, decode w = .command (.crcSeed v) → t.accV = true) ∧
    ((∀ v, decode w ≠ .command (.crcSeed v)) → t.accV = s.accV) := by
  refine ⟨fun v hd => ?_, fun hseed => ?_⟩
  · rw [runWord_of_command hd] at h
    exact congrArg State.accV (Host.Outcome.next.inj h).symm
  · rcases runWord_outcome w s with ⟨c, ht⟩ | ⟨i, v, hd, ht⟩ <;>
      obtain rfl := Host.Outcome.next.inj (h.symm.trans ht)
    · rfl
    · cases i with
      | crcSeed x => exact absurd hd (hseed x)
      | _ => rfl

/-- Settles O36: `CRC_SEED` alone of all words writes `ACC_V`, and the readers of `ACC` fault while it is 0. -/
theorem accVWriters : Obligations.AccVWriters := by
  refine ⟨rfl, fun s t w rest hs ht => ?_, fun s rest hs => ⟨_, step_of_reset hs, rfl⟩, fun s t hs ht => ?_,
    fun i s hi hv => ?_⟩
  · rw [step_of_command hs] at ht
    exact accV_of_runWord (s := s.takeEvent rest) ht
  · rw [eq_of_step_idle hs ht]
  · exact exec_of_unseeded ((readsAcc_iff i).mpr hi) hv

/-! ### `TR_V` -/

/-- `TR_V` after each command (10_state.md R16). -/
def trVAfter (i : Instr) (s : State) : BitVec 4 :=
  match i with
  | .trlSetNid _ => s.trV ||| nidMask
  | .trlSetCrc _ => s.trV ||| crcMask
  | .trlCrcFromAcc => if s.accV then s.trV ||| crcMask else s.trV
  | .trlWriteByte j _ => s.trV ||| byteMask j
  | .trlClear => 0b0000#4
  | .nop | .crcSeed _ | .crcByte _ | .crcRead | .trlReadByte _ | .trlReadNid | .trlReadCrc | .statRead
  | .trlDecode => s.trV

/-- Of the commands that write `TR_V` only `TRL_CRC_FROM_ACC` can fault, and a fault writes none of its bits. -/
theorem trV_of_exec {i : Instr} {s t : State} (h : exec i s = .next t) : t.trV = trVAfter i s := by
  rcases exec_outcome i s with ⟨hi, hv, ht⟩ | ⟨⟨j, hj, -⟩, ht⟩ | ⟨hacc, v, ht⟩ <;>
    obtain rfl := Host.Outcome.next.inj (h.symm.trans ht)
  · cases i with
    | crcByte _ | crcRead => rfl
    | trlCrcFromAcc => simp [trVAfter, hv]
    | _ => cases hi
  · cases i with
    | trlReadByte _ | trlReadNid | trlReadCrc | trlDecode => rfl
    | _ => cases hj
  · cases i with
    | trlSetNid x => exact State.putNid_trV s x
    | trlSetCrc x => exact State.putTcrc_trV s x
    | trlCrcFromAcc => simp [State.effect, trVAfter, hacc rfl]
    | _ => rfl

/-- Settles O37: the bits each command sets or clears, and the fault on a byte whose bit is 0. -/
theorem trVWriters : Obligations.TrVWriters := by
  refine ⟨rfl, fun i s t h => (trV_of_exec h).trans ?_, fun s t w rest hs ht hd => ?_,
    fun s rest hs => ⟨_, step_of_reset hs, rfl⟩, fun i j s hj hv => exec_of_trlIncomplete hj hv⟩
  · cases i <;> rfl
  · obtain ⟨c, hc⟩ := runWord_of_not_command hd (s.takeEvent rest)
    rw [step_of_command hs, hc] at ht
    obtain rfl := Host.Outcome.next.inj ht
    rfl

end Sys2Proof.Safety
end

section
/-! The status word, field by field (10_state.md R18). -/

namespace Sys2Proof.Machine

theorem getLsbD_statusWord (err : BitVec 4) (accV : Bool) (trV : BitVec 4) (i : Nat) :
    (statusWord err accV trV).getLsbD i =
      if i < 4 then trV.getLsbD i
      else if i < 5 then accV
      else if i < 8 then false
      else err.getLsbD (i - 8) := by
  rw [statusWord, BitVec.getLsbD_append, BitVec.getLsbD_append, BitVec.getLsbD_append, BitVec.getLsbD_append]
  by_cases h0 : i < 4
  · simp [h0]
  · by_cases h1 : i < 5
    · simp [h0, h1, show i - 4 = 0 by omega]
    · by_cases h2 : i < 8
      · simp [h0, h1, h2, show ¬ i - 4 < 1 by omega, show i - 4 - 1 < 3 by omega]
      · by_cases h3 : i < 12
        · simp [h0, h1, h2, show ¬ i - 4 < 1 by omega, show ¬ i - 4 - 1 < 3 by omega,
            show i - 8 < 4 by omega, show i - 4 - 1 - 3 = i - 8 by omega]
        · simp [h0, h1, h2, show ¬ i - 4 < 1 by omega, show ¬ i - 4 - 1 < 3 by omega,
            show ¬ i - 4 - 1 - 3 < 4 by omega, BitVec.getLsbD_of_ge err (i - 8) (by omega)]

theorem statusWord_trV (err : BitVec 4) (accV : Bool) (trV : BitVec 4) :
    (statusWord err accV trV).extractLsb' 0 4 = trV := by
  refine BitVec.eq_of_getLsbD_eq fun i hi => ?_
  rw [BitVec.getLsbD_extractLsb', getLsbD_statusWord]
  simp [hi]

theorem statusWord_accV (err : BitVec 4) (accV : Bool) (trV : BitVec 4) :
    (statusWord err accV trV).getLsbD 4 = accV := by
  rw [getLsbD_statusWord]
  simp

theorem statusWord_err (err : BitVec 4) (accV : Bool) (trV : BitVec 4) :
    (statusWord err accV trV).extractLsb' 8 4 = err := by
  refine BitVec.eq_of_getLsbD_eq fun i hi => ?_
  rw [BitVec.getLsbD_extractLsb', getLsbD_statusWord]
  simp [hi, show ¬ 8 + i < 4 by omega, show ¬ 8 + i < 5 by omega]

theorem statusWord_reserved_7_5 (err : BitVec 4) (accV : Bool) (trV : BitVec 4) :
    (statusWord err accV trV).extractLsb' 5 3 = 0 := by
  refine BitVec.eq_of_getLsbD_eq fun i hi => ?_
  rw [BitVec.getLsbD_extractLsb', getLsbD_statusWord]
  simp [show ¬ 5 + i < 4 by omega, show 5 + i < 8 by omega]

theorem statusWord_reserved_31_12 (err : BitVec 4) (accV : Bool) (trV : BitVec 4) :
    (statusWord err accV trV).extractLsb' 12 20 = 0 := by
  refine BitVec.eq_of_getLsbD_eq fun i hi => ?_
  rw [BitVec.getLsbD_extractLsb', getLsbD_statusWord]
  simp [show ¬ 12 + i < 4 by omega, show ¬ 12 + i < 5 by omega, show ¬ 12 + i < 8 by omega,
    BitVec.getLsbD_of_ge err (12 + i - 8) (by omega)]

/-- Settles O15: the word `STAT_READ` responds is `statusWord` of the three registers. -/
theorem statusFieldsInPlace : Obligations.StatusFieldsInPlace := by
  refine ⟨fun s => ⟨statusWord s.err s.accV s.trV, rfl, ?_⟩, rfl⟩
  exact ⟨statusWord_trV _ _ _, statusWord_accV _ _ _, statusWord_reserved_7_5 _ _ _, statusWord_err _ _ _,
    statusWord_reserved_31_12 _ _ _⟩

end Sys2Proof.Machine
end

section
/-! What a command's outcome depends on: the validity bits say whether it faults and how, the registers say what it
writes and responds, and nothing depends on the events that wait or on the responses already given
(20_memory.md R32, R35). -/

namespace Sys2Proof.Machine

open Sys2Proof.Safety

/-- The data a command responds when none of its checks fails (30_encoding.md R45); 0 for a command that reads
nothing. -/
def State.readData (s : State) : Instr → Word
  | .crcRead => zext32 s.acc
  | .trlReadByte j => zext32 (s.trByte j)
  | .trlReadNid => zext32 s.nid
  | .trlReadCrc => zext32 s.tcrc
  | .statRead => statusWord s.err s.accV s.trV
  | .trlDecode => s.trailerWord
  | .nop | .crcSeed _ | .crcByte _ | .trlSetNid _ | .trlSetCrc _ | .trlCrcFromAcc | .trlWriteByte _ _ | .trlClear => 0

theorem State.effect_of_isReadCommand {i : Instr} (hi : isReadCommand i = true) (s : State) : s.effect i = s := by
  cases i with
  | crcRead | trlReadByte _ | trlReadNid | trlReadCrc | statRead | trlDecode => rfl
  | _ => cases hi

theorem State.effect_takeEvent (s : State) (es : List PortEvent) (i : Instr) :
    (s.takeEvent es).effect i = (s.effect i).takeEvent es := by cases i <;> rfl

theorem State.readData_takeEvent (s : State) (es : List PortEvent) (i : Instr) :
    (s.takeEvent es).readData i = s.readData i := by cases i <;> rfl

theorem State.readData_respond (s : State) (v : Word) (i : Instr) : (s.respond v).readData i = s.readData i := by
  cases i <;> rfl

/-- `exec_of_ready` with the response named. -/
theorem exec_eq_of_ready {i : Instr} {s : State} (hacc : readsAcc i = true → s.accV = true)
    (htr : ∀ j, needsTrailerByte i j = true → TrailerByteValid s j) :
    exec i s = .next ((s.effect i).respond (s.readData i)) := by
  cases i with
  | crcByte b => exact State.withAcc_of_valid (hacc rfl) fun acc => (s.setAcc (crcStep acc b)).respond 0
  | crcRead => exact State.withAcc_of_valid (hacc rfl) fun acc => s.respond (zext32 acc)
  | trlCrcFromAcc => exact State.withAcc_of_valid (hacc rfl) fun acc => (s.putTcrc acc).respond 0
  | trlReadByte k => exact withTrailer_of_needed_valid _ (needsTrailerByte_trlReadByte k) htr
  | trlReadNid => exact withTrailer_of_needed_valid _ needsTrailerByte_trlReadNid htr
  | trlReadCrc => exact withTrailer_of_needed_valid _ needsTrailerByte_trlReadCrc htr
  | trlDecode => exact withTrailer_of_needed_valid _ needsTrailerByte_trlDecode htr
  | nop | crcSeed _ | trlSetNid _ | trlSetCrc _ | trlWriteByte _ _ | trlClear | statRead => rfl

/-- Two states with the same validity bits make a command fault alike, or succeed alike (60_exceptions.md R78, R79). -/
theorem exec_faults_or_succeeds (i : Instr) (s : State) :
    (∃ c, ∀ u : State, u.accV = s.accV → u.trV = s.trV → exec i u = .next (u.raiseFault c)) ∨
    (∀ u : State, u.accV = s.accV → u.trV = s.trV → exec i u = .next ((u.effect i).respond (u.readData i))) := by
  by_cases hready : (readsAcc i = true → s.accV = true) ∧ ∀ j, needsTrailerByte i j = true → TrailerByteValid s j
  · obtain ⟨hacc, htr⟩ := hready
    exact .inr fun u ha ht =>
      exec_eq_of_ready (fun hi => ha.trans (hacc hi)) fun j hj => by rw [TrailerByteValid, ht]; exact htr j hj
  · rcases exec_outcome i s with ⟨hi, hv, -⟩ | ⟨⟨j, hj, hv⟩, -⟩ | ⟨hacc, -⟩
    · exact .inl ⟨_, fun u ha _ => exec_of_unseeded hi (ha.trans hv)⟩
    · exact .inl ⟨_, fun u _ ht => exec_of_trlIncomplete hj (ht ▸ hv)⟩
    · obtain ⟨j, hj, hv⟩ : ∃ j, needsTrailerByte i j = true ∧ ¬ TrailerByteValid s j := by
        simpa using fun htr => hready ⟨hacc, htr⟩
      exact .inl ⟨_, fun u _ ht => exec_of_trlIncomplete hj (ht ▸ Bool.eq_false_iff.mpr hv)⟩

end Sys2Proof.Machine
end

section
/-! Read commands write no register when they succeed, and the same read gives the same response again
(20_memory.md R32). -/

namespace Sys2Proof.Safety

open Sys2Proof.Machine

theorem isReadCommand_iff (i : Instr) :
    isReadCommand i = true ↔ i = .crcRead ∨ (∃ j, i = .trlReadByte j) ∨ i = .trlReadNid ∨ i = .trlReadCrc ∨
      i = .trlDecode ∨ i = .statRead := by
  cases i <;> simp [isReadCommand]

/-- Settles O39: neither a fault nor a read changes the validity bits or what is read, so the second one answers as the
first did; a second fault finds `ERR` already set. -/
theorem readsAreIdempotent : Obligations.ReadsAreIdempotent := by
  intro i s hi
  have hread : isReadCommand i = true := (isReadCommand_iff i).mpr hi
  rcases exec_faults_or_succeeds i s with ⟨c, hfault⟩ | hok
  · refine ⟨s.raiseFault c, ⟨true, zext32 c.code⟩, hfault s rfl rfl, rfl, nofun, fun _ => rfl, ?_⟩
    exact ⟨_, hfault (s.raiseFault c) rfl rfl, rfl, stickyErr_of_ne (stickyErr_ne_zero s.err c) c⟩
  · have hsame (u : State) (ha : u.accV = s.accV) (ht : u.trV = s.trV) :
        exec i u = .next (u.respond (u.readData i)) := by
      rw [hok u ha ht, State.effect_of_isReadCommand hread]
    refine ⟨s.respond (s.readData i), ⟨false, s.readData i⟩, hsame s rfl rfl, rfl, fun _ => rfl, nofun, ?_⟩
    refine ⟨_, hsame (s.respond (s.readData i)) rfl rfl, ?_, rfl⟩
    rw [State.respond_outbox, State.readData_respond]

end Sys2Proof.Safety
end

section
/-! The block takes the events of its port one at a time, and what waits behind an event neither changes what that event
does nor is changed by it (20_memory.md R31, R35). -/

namespace Sys2Proof.Safety

open Sys2Proof.Machine

/-- Settles O29. -/
theorem stepRunsDecodedCommand : Obligations.StepRunsDecodedCommand := by
  intro s w i rest hs hd
  rw [step_of_command hs, runWord_of_command hd]
  rfl

/-! ### What waits behind an event -/

theorem exec_takeEvent {i : Instr} {s t : State} (h : exec i s = .next t) (es : List PortEvent) :
    exec i (s.takeEvent es) = .next (t.takeEvent es) := by
  rcases exec_faults_or_succeeds i s with ⟨c, hfault⟩ | hok
  · obtain rfl := Host.Outcome.next.inj (h.symm.trans (hfault s rfl rfl))
    exact hfault (s.takeEvent es) rfl rfl
  · obtain rfl := Host.Outcome.next.inj (h.symm.trans (hok s rfl rfl))
    rw [hok (s.takeEvent es) rfl rfl, State.effect_takeEvent, State.readData_takeEvent]
    rfl

theorem runWord_takeEvent {w : Word} {s t : State} (h : runWord w s = .next t) (es : List PortEvent) :
    runWord w (s.takeEvent es) = .next (t.takeEvent es) := by
  cases hd : decode w with
  | command i =>
    rw [runWord_of_command hd] at h ⊢
    exact exec_takeEvent h es
  | rsvNonzero =>
    rw [runWord_of_rsvNonzero hd] at h ⊢
    rw [← Host.Outcome.next.inj h]
    rfl
  | illegalOp =>
    rw [runWord_of_illegalOp hd] at h ⊢
    rw [← Host.Outcome.next.inj h]
    rfl

theorem step_takeEvent_command {w : Word} {s t : State} (h : runWord w s = .next t) (rest : List PortEvent) :
    step (s.takeEvent (.command w :: rest)) = .next (t.takeEvent rest) :=
  (step_of_command rfl).trans (runWord_takeEvent h rest)

/-- One event makes the same of the registers whatever waits behind it. -/
theorem exists_step_takeEvent (s : State) (e : PortEvent) :
    ∃ t : State, ∀ rest, step (s.takeEvent (e :: rest)) = .next (t.takeEvent rest) := by
  cases e with
  | command w =>
    obtain ⟨t, ht⟩ := exists_runWord_eq_next w s
    exact ⟨t, step_takeEvent_command ht⟩
  | reset => exact ⟨s.applyReset, fun rest => step_of_reset (.inl rfl)⟩
  | resetDuring w => exact ⟨s.applyReset, fun rest => step_of_reset (.inr ⟨w, rfl⟩)⟩

/-! ### `ERR` over a list of responses -/

/-- `ERR` after the responses `rs`, if it was `e` before them (10_state.md R17). -/
def errAfter (e : BitVec 4) (rs : List Response) : BitVec 4 := if e = 0#4 then firstError rs else e

@[simp] theorem errAfter_nil (e : BitVec 4) : errAfter e [] = e := by
  by_cases h : e = 0#4 <;> simp [errAfter, h]

theorem errAfter_success (e : BitVec 4) (v : Word) : errAfter e [⟨false, v⟩] = e := errAfter_nil e

theorem errAfter_fault (e : BitVec 4) (c : ErrorCode) : errAfter e [⟨true, zext32 c.code⟩] = stickyErr e c := by
  rw [errAfter, stickyErr, firstError_cons_error, setWidth_zext32_code]

theorem errAfter_append (e : BitVec 4) {rs : List Response} (h : ∀ r ∈ rs, LegalResponse r) (ss : List Response) :
    errAfter e (rs ++ ss) = errAfter (errAfter e rs) ss := by
  by_cases he : e = 0#4
  · simp only [errAfter, if_pos he, firstError_append, firstError_eq_zero_iff h]
  · simp only [errAfter, if_neg he]

/-! ### A run of words -/

theorem exists_response_of_runWord {w : Word} {s t : State} (h : runWord w s = .next t) :
    ∃ r, LegalResponse r ∧ t.outbox = s.outbox ++ [r] ∧ t.err = errAfter s.err [r] := by
  rcases runWord_cases h with ⟨c, rfl⟩ | ⟨i, u, v, -, rfl, herr, -, hout, -⟩
  · exact ⟨_, legalResponse_fault c, rfl, (errAfter_fault s.err c).symm⟩
  · refine ⟨⟨false, v⟩, legalResponse_success v, ?_, ?_⟩
    · rw [State.respond_outbox, hout]
    · rw [State.respond_err, herr, errAfter_success]

/-- Words at the head of the port are taken in order, one response each, with the same outcome whatever waits behind
them. -/
theorem exists_run_words_then (ws : List Word) : ∀ s : State, ∃ (t : State) (rs : List Response),
    rs.length = ws.length ∧ t.outbox = s.outbox ++ rs ∧ t.err = errAfter s.err rs ∧
    ∀ rest, Host.Core.run Sys2Proof.core ws.length (s.takeEvent (ws.map .command ++ rest)) =
      .next (t.takeEvent rest) := by
  induction ws with
  | nil => exact fun s => ⟨s, [], rfl, (List.append_nil _).symm, (errAfter_nil _).symm, fun _ => rfl⟩
  | cons w ws ih =>
    intro s
    obtain ⟨u, hu⟩ := exists_runWord_eq_next w s
    obtain ⟨r, hlegal, hout, herr⟩ := exists_response_of_runWord hu
    obtain ⟨t, rs, hlen, hout', herr', hrun⟩ := ih u
    refine ⟨t, r :: rs, congrArg Nat.succ hlen, ?_, ?_, fun rest => ?_⟩
    · rw [hout', hout, List.append_assoc, List.singleton_append]
    · rw [herr', herr, ← errAfter_append _ (List.forall_mem_singleton.mpr hlegal), List.singleton_append]
    · exact (core_run_succ (step_takeEvent_command hu _) ws.length).trans (hrun rest)

theorem issueWords_eq_takeEvent {s : State} (h : s.inbox = []) (ws : List Word) :
    s.issueWords ws = s.takeEvent (ws.map .command) := by
  rw [State.issueWords, h, List.nil_append, State.takeEvent]

/-- Settles O32: one event, and by induction a list of words, makes the same of the registers behind every port. -/
theorem commandsRunInOrder : Obligations.CommandsRunInOrder := by
  refine ⟨fun s e rest => ?_, fun s ws vs hin => ?_⟩
  · obtain ⟨t, hstep⟩ := exists_step_takeEvent s e
    exact ⟨t.takeEvent [], hstep [], rfl, hstep rest⟩
  · obtain ⟨t, rs, hlen, hout, herr, hrun⟩ := exists_run_words_then ws s
    refine ⟨t.takeEvent [], rs, ?_, rfl, hlen, hout, herr, ?_⟩
    · rw [issueWords_eq_takeEvent hin, ← hrun [], List.append_nil]
    · rw [issueWords_eq_takeEvent hin, List.map_append]
      exact hrun (vs.map .command)

end Sys2Proof.Safety
end

section
/-! The byte views and the field views of the trailer (20_memory.md R26 to R28). -/

namespace Sys2Proof.Safety

open Sys2Proof.Machine

/-! ### Bytes that hold a value -/

/-- Trailer byte `i` holds the value `b` (10_state.md R14, R16). -/
structure HoldsByte (s : State) (i : BitVec 2) (b : BitVec 8) : Prop where
  valid : TrailerByteValid s i
  byte : s.trByte i = b

theorem HoldsByte.respond {s : State} {i : BitVec 2} {b : BitVec 8} (h : HoldsByte s i b) (v : Word) :
    HoldsByte (s.respond v) i b := ⟨h.valid, h.byte⟩

theorem holdsByte_putTrByte_self (s : State) (i : BitVec 2) (b : BitVec 8) : HoldsByte (s.putTrByte i b) i b where
  valid := by rw [TrailerByteValid, State.putTrByte_trV, getLsbD_or_byteMask, beq_self_eq_true, Bool.or_true]
  byte := State.trByte_putTrByte_self s i b

/-- A write to another byte leaves this one. -/
theorem HoldsByte.putTrByte {s : State} {i j : BitVec 2} {a : BitVec 8} (h : HoldsByte s i a) (hij : i ≠ j)
    (b : BitVec 8) : HoldsByte (s.putTrByte j b) i a where
  valid := by rw [TrailerByteValid, State.putTrByte_trV, getLsbD_or_byteMask, h.valid, Bool.true_or]
  byte := (State.trByte_putTrByte_ne s b hij).trans h.byte

theorem holdsByte_putNid (s : State) (v : BitVec 16) :
    HoldsByte (s.putNid v) 0 (loByte v) ∧ HoldsByte (s.putNid v) 1 (hiByte v) :=
  ⟨(holdsByte_putTrByte_self s 0 _).putTrByte (by decide) _, holdsByte_putTrByte_self _ 1 _⟩

theorem holdsByte_putTcrc (s : State) (v : BitVec 16) :
    HoldsByte (s.putTcrc v) 2 (loByte v) ∧ HoldsByte (s.putTcrc v) 3 (hiByte v) :=
  ⟨(holdsByte_putTrByte_self s 2 _).putTrByte (by decide) _, holdsByte_putTrByte_self _ 3 _⟩

/-- Two bytes written one at a time, in either order, are both held, and `ERR` is as before. -/
theorem exists_execAll_write_pair (s : State) {i j : BitVec 2} (hij : i ≠ j) {a b : BitVec 8} {is : List Instr}
    (h : is = [.trlWriteByte i a, .trlWriteByte j b] ∨ is = [.trlWriteByte j b, .trlWriteByte i a]) :
    ∃ t, execAll is s = .next t ∧ t.err = s.err ∧ HoldsByte t i a ∧ HoldsByte t j b := by
  rcases h with rfl | rfl
  · exact ⟨_, rfl, rfl, (((holdsByte_putTrByte_self s i a).respond 0).putTrByte hij b).respond 0,
      (holdsByte_putTrByte_self _ j b).respond 0⟩
  · exact ⟨_, rfl, rfl, (holdsByte_putTrByte_self _ i a).respond 0,
      (((holdsByte_putTrByte_self s j b).respond 0).putTrByte hij.symm a).respond 0⟩

/-! ### What a read answers -/

theorem allValid_nidMask (trV : BitVec 4) : allValid trV nidMask = (trV.getLsbD 0 && trV.getLsbD 1) := by
  revert trV; decide

theorem allValid_crcMask (trV : BitVec 4) : allValid trV crcMask = (trV.getLsbD 2 && trV.getLsbD 3) := by
  revert trV; decide

theorem exec_trlReadByte_of_holdsByte {s : State} {i : BitVec 2} {b : BitVec 8} (h : HoldsByte s i b) :
    exec (.trlReadByte i) s = .next (s.respond (zext32 b)) := by
  obtain ⟨hv, rfl⟩ := h
  exact State.withTrailer_of_valid ((allValid_byteMask s.trV i).trans hv) _

theorem exec_trlReadNid_of_holdsByte {s : State} {lo hi : BitVec 8} (hlo : HoldsByte s 0 lo) (hhi : HoldsByte s 1 hi) :
    exec .trlReadNid s = .next (s.respond (zext32 (join16 hi lo))) := by
  obtain ⟨hvlo, rfl⟩ := hlo
  obtain ⟨hvhi, rfl⟩ := hhi
  exact State.withTrailer_of_valid ((allValid_nidMask _).trans (Bool.and_eq_true_iff.mpr ⟨hvlo, hvhi⟩)) _

theorem exec_trlReadCrc_of_holdsByte {s : State} {lo hi : BitVec 8} (hlo : HoldsByte s 2 lo) (hhi : HoldsByte s 3 hi) :
    exec .trlReadCrc s = .next (s.respond (zext32 (join16 hi lo))) := by
  obtain ⟨hvlo, rfl⟩ := hlo
  obtain ⟨hvhi, rfl⟩ := hhi
  exact State.withTrailer_of_valid ((allValid_crcMask _).trans (Bool.and_eq_true_iff.mpr ⟨hvlo, hvhi⟩)) _

/-- Two validity bits that differ are not both set. -/
theorem and_eq_false_of_ne {a b : Bool} (h : a ≠ b) : (a && b) = false := by
  revert a b; decide

theorem exec_trlReadNid_of_half_valid {s : State} (h : s.trV.getLsbD 0 ≠ s.trV.getLsbD 1) :
    exec .trlReadNid s = .next (s.raiseFault .trlIncomplete) :=
  State.withTrailer_of_invalid ((allValid_nidMask _).trans (and_eq_false_of_ne h)) _

theorem exec_trlReadCrc_of_half_valid {s : State} (h : s.trV.getLsbD 2 ≠ s.trV.getLsbD 3) :
    exec .trlReadCrc s = .next (s.raiseFault .trlIncomplete) :=
  State.withTrailer_of_invalid ((allValid_crcMask _).trans (and_eq_false_of_ne h)) _

/-- Settles O47: each write, of a byte or of a field, leaves bytes that hold what was written, and a read sees only
those and their validity bits. -/
theorem mixedWidthViewsAgree : Obligations.MixedWidthViewsAgree := by
  refine ⟨fun s v => ?_, fun s v => ?_, fun s lo hi is h => ?_, fun s lo hi is h => ?_,
    fun s h => exec_trlReadNid_of_half_valid h, fun s h => exec_trlReadCrc_of_half_valid h⟩
  · obtain ⟨hlo, hhi⟩ := holdsByte_putNid s v
    exact ⟨_, rfl, rfl, exec_trlReadByte_of_holdsByte (hlo.respond 0), exec_trlReadByte_of_holdsByte (hhi.respond 0)⟩
  · obtain ⟨hlo, hhi⟩ := holdsByte_putTcrc s v
    exact ⟨_, rfl, rfl, exec_trlReadByte_of_holdsByte (hlo.respond 0), exec_trlReadByte_of_holdsByte (hhi.respond 0)⟩
  · obtain ⟨t, ht, herr, hlo, hhi⟩ := exists_execAll_write_pair s (by decide) h
    exact ⟨t, ht, herr, exec_trlReadNid_of_holdsByte hlo hhi⟩
  · obtain ⟨t, ht, herr, hlo, hhi⟩ := exists_execAll_write_pair s (by decide) h
    exact ⟨t, ht, herr, exec_trlReadCrc_of_holdsByte hlo hhi⟩

end Sys2Proof.Safety
end

section
/-! The decoder and the encoder are inverse (30_encoding.md R38 to R43): the row of a command checks the opcode and both
reserved fields, so a word it selects is rebuilt from the fields the decoder reads. -/

namespace Sys2Proof

/-! ### The two checks of the decoder -/

theorem selects_iff {r : OpcodeRow} {w : Word} : r.selects w = true ↔ w &&& r.mask = r.pattern := beq_iff_eq

/-- The decoder accepts a command when `OP` names it and its row selects the word (60_exceptions.md R80). -/
theorem decode_eq_command_iff {w : Word} {i : Instr} :
    decode w = .command i ↔ commandOf w = some i ∧ i.row.selects w = true := by
  rw [decode]
  split
  next hc => simp [hc]
  next k hc =>
    rw [hc]
    split
    next hs => simp only [Decoded.command.injEq, Option.some.injEq]; exact ⟨fun h => ⟨h, h ▸ hs⟩, And.left⟩
    next hs => simp only [Option.some.injEq]; exact ⟨nofun, fun ⟨h, hi⟩ => absurd (h ▸ hi) hs⟩

/-! ### From a command to its word and back -/

theorem commandOf_encode (i : Instr) : commandOf (encode i) = some i := by
  cases i <;> simp [commandOf, encode]

theorem selects_encode (i : Instr) : i.row.selects (encode i) = true := by
  cases i with
  | nop => exact Laws.EncodeRow.nop
  | crcSeed v => exact Laws.EncodeRow.crcSeed v
  | crcByte b => exact Laws.EncodeRow.crcByte b
  | crcRead => exact Laws.EncodeRow.crcRead
  | trlSetNid v => exact Laws.EncodeRow.trlSetNid v
  | trlSetCrc v => exact Laws.EncodeRow.trlSetCrc v
  | trlCrcFromAcc => exact Laws.EncodeRow.trlCrcFromAcc
  | trlWriteByte j b => exact Laws.EncodeRow.trlWriteByte j b
  | trlReadByte j => exact Laws.EncodeRow.trlReadByte j
  | trlReadNid => exact Laws.EncodeRow.trlReadNid
  | trlReadCrc => exact Laws.EncodeRow.trlReadCrc
  | trlClear => exact Laws.EncodeRow.trlClear
  | statRead => exact Laws.EncodeRow.statRead
  | trlDecode => exact Laws.EncodeRow.trlDecode

/-- Settles O23: the fields of `encode i` name `i`, and the row of `i` selects `encode i`. -/
theorem decodeOfEncode : Obligations.DecodeOfEncode := fun i =>
  decode_eq_command_iff.mpr ⟨commandOf_encode i, selects_encode i⟩

/-! ### From a word to its command and back -/

theorem row_mem_opcodeMap (i : Instr) : i.row ∈ opcodeMap := by
  cases i <;> simp [opcodeMap, Instr.row]

/-- Where a row's mask covers a field, a word the row selects has the pattern's field. -/
theorem extractLsb'_of_selects {r : OpcodeRow} {w : Word} (h : r.selects w = true) {k n : Nat}
    (hm : r.mask.extractLsb' k n = BitVec.allOnes n) : w.extractLsb' k n = r.pattern.extractLsb' k n := by
  rw [← selects_iff.mp h, BitVec.extractLsb'_and, hm, BitVec.and_allOnes]

/-- A must-be-zero field of a row (30_encoding.md R40) is zero in a word the row selects. -/
theorem zeroField_of_selects {name : String} {p m w : Word} (h : (OpcodeRow.mk name p m).selects w = true)
    {k n : Nat} (hm : m.extractLsb' k n = BitVec.allOnes n) (hp : p.extractLsb' k n = 0#n) : w.extractLsb' k n = 0#n :=
  (extractLsb'_of_selects h hm).trans hp

/-- A word is its five fields side by side (30_encoding.md R38). -/
theorem append_fields (w : Word) :
    opField w ++ w.extractLsb' 26 2 ++ idxField w ++ w.extractLsb' 16 8 ++ imm16Field w = w := by
  rw [opField, idxField, imm16Field, BitVec.extractLsb'_append_extractLsb'_eq_extractLsb' (by rfl : 28 = 26 + 2),
    BitVec.extractLsb'_append_extractLsb'_eq_extractLsb' (by rfl : 26 = 24 + 2),
    BitVec.extractLsb'_append_extractLsb'_eq_extractLsb' (by rfl : 24 = 16 + 8),
    BitVec.extractLsb'_append_extractLsb'_eq_extractLsb' (by rfl : 16 = 0 + 16)]
  exact BitVec.extractLsb'_eq_self

/-- Every row checks both reserved fields, so a word it selects is made of its opcode, its index and its immediate. -/
theorem commandWord_of_selects {i : Instr} {w : Word} {op : BitVec 4} {idx : BitVec 2} {imm : BitVec 16}
    (h : i.row.selects w = true) (hop : (opField w).toNat = op.toNat) (hidx : idxField w = idx)
    (himm : imm16Field w = imm) : commandWord op idx imm = w := by
  have hrows : ∀ r ∈ opcodeMap,
      (r.mask.extractLsb' 26 2 = BitVec.allOnes 2 ∧ r.pattern.extractLsb' 26 2 = 0#2) ∧
      (r.mask.extractLsb' 16 8 = BitVec.allOnes 8 ∧ r.pattern.extractLsb' 16 8 = 0#8) := by decide
  obtain ⟨⟨hm, hp⟩, hm', hp'⟩ := hrows _ (row_mem_opcodeMap i)
  have hhigh := zeroField_of_selects h hm hp
  have hlow := zeroField_of_selects h hm' hp'
  rw [commandWord, ← BitVec.eq_of_toNat_eq hop, ← hidx, ← himm, ← hhigh, ← hlow, append_fields]

/-- A 16-bit immediate whose high byte is zero is its low byte extended. -/
theorem setWidth_imm8Field {w : Word} (h : w.extractLsb' 8 8 = 0#8) : (imm8Field w).setWidth 16 = imm16Field w := by
  have hjoin : w.extractLsb' 8 8 ++ imm8Field w = imm16Field w :=
    BitVec.extractLsb'_append_extractLsb'_eq_extractLsb' rfl
  rw [← hjoin, h]
  exact BitVec.setWidth_eq_append (by decide)

/-- Settles O24: a field that is no operand is checked by the row, and a field that is one is read back as it stands. -/
theorem encodeOfDecode : Obligations.EncodeOfDecode := by
  intro w i hd
  obtain ⟨hc, hs⟩ := decode_eq_command_iff.mp hd
  unfold commandOf at hc
  split at hc <;> cases hc
  -- The rows with a 16-bit immediate.
  case h_2 hop | h_5 hop | h_6 hop =>
    exact commandWord_of_selects hs hop (zeroField_of_selects hs (by decide) (by decide)) rfl
  -- `CRC_BYTE`: the high byte of the immediate is checked.
  case h_3 hop =>
    have himm := zeroField_of_selects hs (k := 8) (n := 8) (by decide) (by decide)
    exact commandWord_of_selects hs hop (zeroField_of_selects hs (by decide) (by decide))
      (setWidth_imm8Field himm).symm
  -- `TRL_WRITE_BYTE`: the high byte is checked here too, and the index is an operand.
  case h_8 hop =>
    have himm := zeroField_of_selects hs (k := 8) (n := 8) (by decide) (by decide)
    exact commandWord_of_selects hs hop rfl (setWidth_imm8Field himm).symm
  -- `TRL_READ_BYTE`: the index alone is an operand.
  case h_9 hop =>
    exact commandWord_of_selects hs hop rfl (zeroField_of_selects hs (by decide) (by decide))
  -- The rows with no operand.
  case h_1 hop | h_4 hop | h_7 hop | h_10 hop | h_11 hop | h_12 hop | h_13 hop | h_14 hop =>
    exact commandWord_of_selects hs hop (zeroField_of_selects hs (by decide) (by decide))
      (zeroField_of_selects hs (by decide) (by decide))

end Sys2Proof
end

section
/-! The rows of the opcode map and the words they select (30_encoding.md R41 to R44). -/

namespace Sys2Proof

/-- `OP` is the index of the row (30_encoding.md R38, R41); the reserved opcodes lie past the end. -/
theorem map_row_commandOf (w : Word) : (commandOf w).map Instr.row = opcodeMap[(opField w).toNat]? := by
  have hop := (opField w).isLt
  rw [commandOf]
  generalize (opField w).toNat = n at hop ⊢
  interval_cases n <;> rfl

/-- A row selects exactly the words that decode to a command of that row (30_encoding.md R41). -/
theorem selects_iff_exists_decode {r : OpcodeRow} (hr : r ∈ opcodeMap) {w : Word} :
    w &&& r.mask = r.pattern ↔ ∃ i, decode w = .command i ∧ i.row = r := by
  constructor
  · intro h
    have hrows : ∀ r ∈ opcodeMap, r.mask.extractLsb' 28 4 = BitVec.allOnes 4 ∧
        opcodeMap[(opField r.pattern).toNat]? = some r := by decide
    obtain ⟨hm, hindex⟩ := hrows r hr
    have hs : r.selects w = true := selects_iff.mpr h
    have hop : opField w = opField r.pattern := extractLsb'_of_selects hs hm
    rw [← hop, ← map_row_commandOf] at hindex
    obtain ⟨i, hi, rfl⟩ := Option.map_eq_some_iff.mp hindex
    exact ⟨i, decode_eq_command_iff.mpr ⟨hi, hs⟩, rfl⟩
  · rintro ⟨i, hd, rfl⟩
    exact selects_iff.mp (decode_eq_command_iff.mp hd).2

theorem row_unique {r r' : OpcodeRow} (hr : r ∈ opcodeMap) (hr' : r' ∈ opcodeMap) {w : Word}
    (h : w &&& r.mask = r.pattern) (h' : w &&& r'.mask = r'.pattern) : r = r' := by
  obtain ⟨i, hd, rfl⟩ := (selects_iff_exists_decode hr).mp h
  obtain ⟨k, hd', rfl⟩ := (selects_iff_exists_decode hr').mp h'
  rw [Decoded.command.inj (hd.symm.trans hd')]

/-- Settles O25: the opcode of a selected word names the command of its row, and a word has one decoding. -/
theorem opcodeMapSelects : Obligations.OpcodeMapSelects :=
  ⟨rfl, fun _ _ hr => selects_iff_exists_decode hr, fun _ _ _ hr hr' => row_unique hr hr'⟩

/-! ### What a word is -/

theorem commandOf_eq_none_iff {w : Word} : commandOf w = none ↔ 0xE ≤ (opField w).toNat := by
  rw [← Option.map_eq_none_iff (f := Instr.row), map_row_commandOf]
  exact List.getElem?_eq_none_iff

theorem decode_eq_illegalOp_iff {w : Word} : decode w = .illegalOp ↔ 0xE ≤ (opField w).toNat := by
  rw [← commandOf_eq_none_iff, decode]
  split
  next hc => simp [hc]
  next k hc => rw [hc]; split <;> simp

theorem exists_decode_iff_exists_row {w : Word} :
    (∃ i, decode w = .command i) ↔ ∃ r ∈ opcodeMap, w &&& r.mask = r.pattern := by
  constructor
  · rintro ⟨i, hd⟩
    exact ⟨i.row, row_mem_opcodeMap i, (selects_iff_exists_decode (row_mem_opcodeMap i)).mpr ⟨i, hd, rfl⟩⟩
  · rintro ⟨r, hr, h⟩
    obtain ⟨i, hd, -⟩ := (selects_iff_exists_decode hr).mp h
    exact ⟨i, hd⟩

/-- The third verdict of the decoder is what the other two leave. -/
theorem decode_eq_rsvNonzero_iff {w : Word} :
    decode w = .rsvNonzero ↔ decode w ≠ .illegalOp ∧ ¬ ∃ i, decode w = .command i := by
  cases decode w <;> simp

theorem decode_eq_command_iff_encode {w : Word} {i : Instr} : decode w = .command i ↔ encode i = w :=
  ⟨encodeOfDecode w i, fun h => h ▸ decodeOfEncode i⟩

/-- Settles O26: the opcode decides the first verdict, the rows the second, and the rest is the third. -/
theorem everyWordHasOneMeaning : Obligations.EveryWordHasOneMeaning := by
  refine ⟨fun w => decode_eq_illegalOp_iff, fun w => ?_, fun w => exists_decode_iff_exists_row, fun w => ?_⟩
  · rw [decode_eq_rsvNonzero_iff, Ne, decode_eq_illegalOp_iff, exists_decode_iff_exists_row, Nat.not_le, not_exists]
    simp only [not_and]
    rfl
  · rw [decode_eq_command_iff_encode, show encode .nop = 0#32 by decide]
    exact eq_comm

/-- Settles O27: each word is the one its command encodes to. -/
theorem wordsOfTheSpecDecode : Obligations.WordsOfTheSpecDecode := by
  simp only [Obligations.WordsOfTheSpecDecode, decode_eq_command_iff_encode]
  decide

end Sys2Proof
end

section
/-! The assembler of 30_encoding.md R46, on numbers. -/

namespace Sys2Proof.Machine

/-- Side by side is a sum, the left one shifted. -/
theorem toNat_append_eq_add {m n : Nat} (x : BitVec m) (y : BitVec n) :
    (x ++ y).toNat = x.toNat * 2 ^ n + y.toNat := by
  rw [BitVec.toNat_append, ← Nat.shiftLeft_add_eq_or_of_lt y.isLt, Nat.shiftLeft_eq]

/-- A command word as a number: its fields, each at its place (30_encoding.md R38). -/
theorem toNat_commandWord (op : BitVec 4) (idx : BitVec 2) (imm : BitVec 16) :
    (commandWord op idx imm).toNat = op.toNat * 0x10000000 + idx.toNat * 0x01000000 + imm.toNat := by
  have hword : (commandWord op idx imm).toNat = (op ++ 0#2 ++ idx ++ 0#8 ++ imm).toNat := rfl
  rw [hword]
  simp only [toNat_append_eq_add, BitVec.toNat_ofNat]
  omega

/-- What is to be shown of each line: the command it stands for, the range of its operands, and its word. -/
theorem assemble_eq_some_iff {c : AsmCmd} {i : Instr} {p : Prop} {n : Nat} (w : Word)
    (hc : commandOfAsm c = if c.wellFormed then some i else none) (hp : c.wellFormed = true ↔ p)
    (hn : p → (encode i).toNat = n) : assemble c = some w ↔ p ∧ w.toNat = n := by
  rw [assemble, hc, ← hp]
  cases hwf : c.wellFormed with
  | false => simp
  | true =>
    rw [← hn (hp.mp hwf), BitVec.toNat_inj]
    simp [eq_comm]

theorem setWidth_ofNat_byte {b : Nat} (h : b ≤ 0xFF) : (BitVec.ofNat 8 b).setWidth 16 = BitVec.ofNat 16 b := by
  apply BitVec.eq_of_toNat_eq
  rw [BitVec.toNat_setWidth, BitVec.toNat_ofNat, BitVec.toNat_ofNat]
  omega

/-- A command word whose operands are numbers in range; `a` is what the opcode contributes. -/
theorem toNat_commandWord_ofNat {op : BitVec 4} {a i v : Nat} (hop : op.toNat * 0x10000000 = a) (hi : i ≤ 3)
    (hv : v ≤ 0xFFFF) :
    (commandWord op (BitVec.ofNat 2 i) (BitVec.ofNat 16 v)).toNat = a + i * 0x01000000 + v := by
  have hi' : i < 2 ^ 2 := by omega
  have hv' : v < 2 ^ 16 := by omega
  rw [toNat_commandWord, BitVec.toNat_ofNat, BitVec.toNat_ofNat, Nat.mod_eq_of_lt hi', Nat.mod_eq_of_lt hv', hop]

theorem toNat_commandWord_imm16 {op : BitVec 4} {a v : Nat} (hop : op.toNat * 0x10000000 = a) (hv : v ≤ 0xFFFF) :
    (commandWord op 0 (BitVec.ofNat 16 v)).toNat = a + v := by
  simpa using toNat_commandWord_ofNat hop (Nat.zero_le 3) hv

theorem toNat_commandWord_idx {op : BitVec 4} {a i : Nat} (hop : op.toNat * 0x10000000 = a) (hi : i ≤ 3) :
    (commandWord op (BitVec.ofNat 2 i) 0).toNat = a + i * 0x01000000 := by
  simpa using toNat_commandWord_ofNat hop hi (Nat.zero_le 0xFFFF)

/-- Settles O28: an operand in range is kept by its field, so the word is the sum of the fields. -/
theorem assemblerWords : Obligations.AssemblerWords := by
  intro c w
  cases c with
  | nop | crcRead | trlCrcFromAcc | trlReadNid | trlReadCrc | trlClear | statRead | trlDecode =>
    exact assemble_eq_some_iff w rfl (iff_true_intro rfl) fun _ => rfl
  | crcSeed v | trlSetNid v | trlSetCrc v =>
    exact assemble_eq_some_iff w rfl decide_eq_true_iff fun hv => toNat_commandWord_imm16 rfl hv
  | crcByte b =>
    refine assemble_eq_some_iff w rfl decide_eq_true_iff fun hb => ?_
    rw [encode, setWidth_ofNat_byte hb]
    exact toNat_commandWord_imm16 rfl (hb.trans (by decide))
  | trlWriteByte i b =>
    refine assemble_eq_some_iff w rfl (by simp [AsmCmd.wellFormed]) fun ⟨hi, hb⟩ => ?_
    rw [encode, setWidth_ofNat_byte hb]
    exact toNat_commandWord_ofNat rfl hi (hb.trans (by decide))
  | trlReadByte i =>
    exact assemble_eq_some_iff w rfl decide_eq_true_iff fun hi => toNat_commandWord_idx rfl hi

end Sys2Proof.Machine
end

section
/-! The response of one word (30_encoding.md R45). -/

namespace Sys2Proof.Safety

open Sys2Proof.Machine

/-- The codes of 60_exceptions.md R75, as response data. -/
theorem zext32_code_cases (c : ErrorCode) :
    zext32 c.code = 1 ∨ zext32 c.code = 2 ∨ zext32 c.code = 3 ∨ zext32 c.code = 4 := by
  cases c <;> decide

/-- Settles O22: a word raises one of the four faults, or its command responds once with success. -/
theorem oneResponsePerCommandWord : Obligations.OneResponsePerCommandWord := by
  intro s w rest hs
  obtain ⟨t, ht⟩ := exists_runWord_eq_next w (s.takeEvent rest)
  rw [step_of_command hs]
  rcases runWord_cases ht with ⟨c, rfl⟩ | ⟨i, u, v, hd, rfl, -, hin, hout, hdata⟩
  · exact ⟨_, ⟨true, zext32 c.code⟩, ht, rfl, rfl, fun _ => zext32_code_cases c, nofun⟩
  · exact ⟨_, ⟨false, v⟩, ht, hin, congrArg (· ++ [_]) hout, nofun, fun _ => ⟨i, hd, hdata⟩⟩

end Sys2Proof.Safety
end

section
/-! Commands issued to an idle block are executed one after another (20_memory.md R35), and the pseudo-commands of
30_encoding.md R47 as such sequences. -/

namespace Sys2Proof.Safety

open Sys2Proof.Machine

/-! ### Sequences of commands -/

theorem exists_exec_eq_next (i : Instr) (s : State) : ∃ t, exec i s = .next t := by
  rcases exec_faults_or_succeeds i s with ⟨c, hfault⟩ | hok
  · exact ⟨_, hfault s rfl rfl⟩
  · exact ⟨_, hok s rfl rfl⟩

theorem execAll_append {is js : List Instr} {s t : State} (h : execAll is s = .next t) :
    execAll (is ++ js) s = execAll js t := by
  induction is generalizing s with
  | nil => rw [← Host.Outcome.next.inj h]; rfl
  | cons i is ih =>
    obtain ⟨u, hu⟩ := exists_exec_eq_next i s
    rw [execAll_cons hu] at h
    rw [List.cons_append, execAll_cons hu, ih h]

/-- The words of a list of commands, taken from the head of the port, do what the commands do. -/
theorem run_encode_of_execAll {is : List Instr} {s t : State} (h : execAll is s = .next t) (rest : List PortEvent) :
    Host.Core.run Sys2Proof.core is.length (s.takeEvent ((is.map encode).map .command ++ rest)) =
      .next (t.takeEvent rest) := by
  induction is generalizing s with
  | nil => rw [← Host.Outcome.next.inj h]; rfl
  | cons i is ih =>
    obtain ⟨u, hu⟩ := exists_exec_eq_next i s
    rw [execAll_cons hu] at h
    have hword : runWord (encode i) s = .next u := (runWord_of_command (decodeOfEncode i) s).trans hu
    exact (core_run_succ (step_takeEvent_command hword _) is.length).trans (ih h)

/-- Commands issued to an idle block: after as many steps the block is idle in the state they lead to. -/
theorem run_issueCommands_of_execAll {is : List Instr} {s t : State} (hin : s.inbox = []) (h : execAll is s = .next t) :
    Host.Core.run Sys2Proof.core is.length (s.issueCommands is) = .next (t.takeEvent []) := by
  rw [State.issueCommands, issueWords_eq_takeEvent hin, ← run_encode_of_execAll h [], List.append_nil]

/-! ### `CRC16` -/

/-- Bytes fed to a seeded block: `ACC` goes on from where it was, and every response is a success (40_crc.md R53). -/
theorem execAll_crcBytes (bytes : List (BitVec 8)) : ∀ s : State, s.accV = true →
    execAll (bytes.map .crcByte) s = .next { s with
      acc := crc16 bytes s.acc
      outbox := s.outbox ++ List.replicate bytes.length ⟨false, 0⟩ } := by
  induction bytes with
  | nil => intro s _; simp [execAll, crc16]
  | cons b bytes ih =>
    intro s hv
    have hstep : exec (.crcByte b) s = .next ((s.setAcc (crcStep s.acc b)).respond 0) :=
      exec_eq_of_ready (fun _ => hv) nofun
    rw [List.map_cons, execAll_cons hstep, ih ((s.setAcc (crcStep s.acc b)).respond 0) hv]
    simp [State.setAcc, State.respond, crc16, List.replicate_succ]

theorem execAll_crc16 (s : State) (seed : BitVec 16) (bytes : List (BitVec 8)) :
    execAll (expandPseudo (.crc16 seed bytes)) s = .next { s with
      acc := crc16 bytes seed
      accV := true
      outbox := s.outbox ++ List.replicate (bytes.length + 1) ⟨false, 0⟩ ++ [⟨false, zext32 (crc16 bytes seed)⟩] } := by
  have hfeed : execAll ([.crcSeed seed] ++ bytes.map .crcByte) s = .next _ :=
    execAll_crcBytes bytes ((s.seedAcc seed).respond 0) rfl
  rw [expandPseudo, execAll_append hfeed]
  simp [execAll, exec, execCrcRead, State.respond, State.seedAcc, List.replicate_succ]

/-! ### A whole trailer -/

/-- The four trailer bytes hold these values, in wire order. -/
def HoldsTrailer (s : State) (t : Vector (BitVec 8) 4) : Prop := ∀ i : BitVec 2, HoldsByte s i (t[i.toNat]'i.isLt)

theorem holdsTrailer_of_bytes {s : State} {b₀ b₁ b₂ b₃ : BitVec 8} (h₀ : HoldsByte s 0 b₀) (h₁ : HoldsByte s 1 b₁)
    (h₂ : HoldsByte s 2 b₂) (h₃ : HoldsByte s 3 b₃) : HoldsTrailer s #v[b₀, b₁, b₂, b₃] := by
  intro i
  obtain rfl | rfl | rfl | rfl : i = 0 ∨ i = 1 ∨ i = 2 ∨ i = 3 := by revert i; decide
  · exact h₀
  · exact h₁
  · exact h₂
  · exact h₃

theorem HoldsTrailer.respond {s : State} {t : Vector (BitVec 8) 4} (h : HoldsTrailer s t) (v : Word) :
    HoldsTrailer (s.respond v) t := fun i => (h i).respond v

/-- The fields a whole trailer holds are those of `decode_trailer` (41_trailer.md R59), and they make up its word. -/
theorem HoldsTrailer.trailerWord_eq {s : State} {t : Vector (BitVec 8) 4} (h : HoldsTrailer s t) :
    s.trailerWord = ((decodeTrailer t).payloadCrc ++ (decodeTrailer t).networkId : BitVec (16 + 16)) := by
  rw [State.trailerWord_eq, State.tcrc, State.nid, (h 3#2).byte, (h 2#2).byte, (h 1#2).byte, (h 0#2).byte]
  rfl

theorem exec_trlDecode_of_holdsTrailer {s : State} {t : Vector (BitVec 8) 4} (h : HoldsTrailer s t) :
    exec .trlDecode s =
      .next (s.respond ((decodeTrailer t).payloadCrc ++ (decodeTrailer t).networkId : BitVec (16 + 16))) := by
  rw [← h.trailerWord_eq]
  exact exec_eq_of_ready nofun fun j _ => (h j).valid

/-- `EMIT_TRAILER` responds the four bytes in order and changes no register. -/
theorem execAll_emitTrailer {s : State} {t : Vector (BitVec 8) 4} (h : HoldsTrailer s t) :
    execAll (expandPseudo .emitTrailer) s =
      .next { s with outbox := s.outbox ++ t.toList.map fun b => ⟨false, zext32 b⟩ } := by
  obtain ⟨b₀, b₁, b₂, b₃, rfl⟩ := exists_bytes t
  rw [expandPseudo, execAll_cons (exec_trlReadByte_of_holdsByte (h 0)),
    execAll_cons (exec_trlReadByte_of_holdsByte ((h 1).respond _)),
    execAll_cons (exec_trlReadByte_of_holdsByte (((h 2).respond _).respond _)),
    execAll_cons (exec_trlReadByte_of_holdsByte ((((h 3).respond _).respond _).respond _))]
  simp [execAll, State.respond]

/-! ### `ENCODE_TRAILER` -/

/-- Both fields written, each by a command with its response. -/
def writeTrailer (s : State) (nid crc : BitVec 16) : State := (((s.putNid nid).respond 0).putTcrc crc).respond 0

theorem execAll_encodeTrailer (s : State) (nid crc : BitVec 16) :
    execAll (expandPseudo (.encodeTrailer nid crc)) s = .next (writeTrailer s nid crc) := rfl

theorem execAll_encodeTrailerAcc {s : State} (h : s.accV = true) (nid : BitVec 16) :
    execAll (expandPseudo (.encodeTrailerAcc nid)) s = .next (writeTrailer s nid s.acc) := by
  have hcopy : exec .trlCrcFromAcc ((s.putNid nid).respond 0) = .next (writeTrailer s nid s.acc) :=
    exec_eq_of_ready (fun _ => h) nofun
  exact execAll_cons hcopy []

/-- Writing the CRC field leaves the network ID bytes. -/
theorem HoldsByte.putTcrc {s : State} {i : BitVec 2} {b : BitVec 8} (h : HoldsByte s i b) (h₂ : i ≠ 2#2) (h₃ : i ≠ 3#2)
    (v : BitVec 16) : HoldsByte (s.putTcrc v) i b := (h.putTrByte h₂ _).putTrByte h₃ _

theorem holdsTrailer_writeTrailer (s : State) (nid crc : BitVec 16) :
    HoldsTrailer (writeTrailer s nid crc) (encodeTrailer nid crc) := by
  obtain ⟨h₀, h₁⟩ := holdsByte_putNid s nid
  obtain ⟨h₂, h₃⟩ := holdsByte_putTcrc ((s.putNid nid).respond 0) crc
  exact (holdsTrailer_of_bytes ((h₀.respond 0).putTcrc (by decide) (by decide) crc)
    ((h₁.respond 0).putTcrc (by decide) (by decide) crc) h₂ h₃).respond 0

/-- Two commands that write both fields, then `EMIT_TRAILER`, on an idle block. -/
theorem exists_run_write_emit {s : State} {is : List Instr} {nid crc : BitVec 16} (hin : s.inbox = [])
    (hlen : is.length = 2) (h : execAll is s = .next (writeTrailer s nid crc)) :
    ∃ t : State, Host.Core.run Sys2Proof.core 6 (s.issueCommands (is ++ expandPseudo .emitTrailer)) = .next t ∧
      t.err = s.err ∧ t.outbox = s.outbox ++ [⟨false, 0⟩, ⟨false, 0⟩] ++
        (encodeTrailer nid crc).toList.map fun b => ⟨false, zext32 b⟩ := by
  have hall := (execAll_append h).trans (execAll_emitTrailer (holdsTrailer_writeTrailer s nid crc))
  have hrun := run_issueCommands_of_execAll hin hall
  rw [List.length_append, hlen] at hrun
  exact ⟨_, hrun, rfl, by simp [writeTrailer]⟩

/-! ### `DECODE_TRAILER` -/

theorem HoldsByte.write {s : State} {i j : BitVec 2} {a : BitVec 8} (h : HoldsByte s i a) (hij : i ≠ j)
    (b : BitVec 8) : HoldsByte ((s.putTrByte j b).respond 0) i a := (h.putTrByte hij b).respond 0

theorem holdsByte_write_self (s : State) (i : BitVec 2) (b : BitVec 8) :
    HoldsByte ((s.putTrByte i b).respond 0) i b := (holdsByte_putTrByte_self s i b).respond 0

/-- The four bytes written one at a time after `TRL_CLEAR` are all held. -/
theorem exists_execAll_clear_write (s : State) (t₀ t₁ t₂ t₃ : BitVec 8) : ∃ u : State,
    execAll [.trlClear, .trlWriteByte 0 t₀, .trlWriteByte 1 t₁, .trlWriteByte 2 t₂, .trlWriteByte 3 t₃] s = .next u ∧
      u.err = s.err ∧ u.outbox = s.outbox ++ List.replicate 5 ⟨false, 0⟩ ∧ HoldsTrailer u #v[t₀, t₁, t₂, t₃] := by
  refine ⟨_, rfl, rfl, by simp [List.replicate], holdsTrailer_of_bytes ?_ ?_ ?_ (holdsByte_write_self _ 3 t₃)⟩
  · exact (((holdsByte_write_self _ 0 t₀).write (by decide) t₁).write (by decide) t₂).write (by decide) t₃
  · exact ((holdsByte_write_self _ 1 t₁).write (by decide) t₂).write (by decide) t₃
  · exact (holdsByte_write_self _ 2 t₂).write (by decide) t₃

theorem exists_execAll_decodeTrailer (s : State) (t₀ t₁ t₂ t₃ : BitVec 8) : ∃ u : State,
    execAll (expandPseudo (.decodeTrailer t₀ t₁ t₂ t₃)) s = .next u ∧ u.err = s.err ∧
      u.outbox = s.outbox ++ List.replicate 5 ⟨false, 0⟩ ++
        [⟨false, ((decodeTrailer #v[t₀, t₁, t₂, t₃]).payloadCrc ++
          (decodeTrailer #v[t₀, t₁, t₂, t₃]).networkId : BitVec (16 + 16))⟩] := by
  obtain ⟨u, hu, herr, hout, hheld⟩ := exists_execAll_clear_write s t₀ t₁ t₂ t₃
  refine ⟨_, (execAll_append (js := [.trlDecode]) hu).trans (execAll_cons (exec_trlDecode_of_holdsTrailer hheld) []),
    herr, ?_⟩
  rw [State.respond_outbox, hout]

/-- Settles O51: each expansion run as a sequence of commands, which the block does word by word. -/
theorem pseudoCommandsRealiseOperations : Obligations.PseudoCommandsRealiseOperations := by
  refine ⟨fun s seed bytes hin => ?_, fun s nid crc hin => ?_, fun s nid hin hv => ?_, fun s t₀ t₁ t₂ t₃ hin => ?_⟩
  · have hrun := run_issueCommands_of_execAll hin (execAll_crc16 s seed bytes)
    rw [show (expandPseudo (.crc16 seed bytes)).length = bytes.length + 2 by simp [expandPseudo]] at hrun
    exact ⟨_, hrun, rfl, rfl⟩
  · exact exists_run_write_emit hin rfl (execAll_encodeTrailer s nid crc)
  · exact exists_run_write_emit hin rfl (execAll_encodeTrailerAcc hv nid)
  · obtain ⟨u, hu, herr, hout⟩ := exists_execAll_decodeTrailer s t₀ t₁ t₂ t₃
    exact ⟨_, _, run_issueCommands_of_execAll hin hu, herr, hout, BitVec.extractLsb'_append_eq_right,
      BitVec.extractLsb'_append_eq_left⟩

end Sys2Proof.Safety
end

section
/-! The CRC generator commands (40_crc.md R50 to R52): what each answers, and the words it has. -/

namespace Sys2Proof

/-! ### The words of a command whose operand, if any, stands in the low bits -/

/-- The opcode of a word is that of the row it names (30_encoding.md R41). -/
theorem opField_of_commandOf {w : Word} {i : Instr} (hc : commandOf w = some i) :
    opField w = opField i.row.pattern := by
  have hrows : ∀ op : BitVec 4, ∀ r ∈ opcodeMap[op.toNat]?, op = opField r.pattern := by decide
  refine hrows (opField w) i.row ?_
  rw [← map_row_commandOf, hc]
  rfl

/-- The column "match" of R41 is the opcode alone. -/
theorem getLsbD_row_pattern (i : Instr) {j : Nat} (hj : j < 28) : i.row.pattern.getLsbD j = false := by
  have hrows : ∀ r ∈ opcodeMap, r.pattern.extractLsb' 0 28 = 0#28 := by decide
  simpa [hj] using congrArg (BitVec.getLsbD · j) (hrows _ (row_mem_opcodeMap i))

theorem getLsbD_allOnes_shiftLeft {k j : Nat} (hj : j < 32) : (BitVec.allOnes 32 <<< k).getLsbD j = decide (k ≤ j) := by
  rw [BitVec.getLsbD_shiftLeft, BitVec.getLsbD_allOnes]
  rcases Nat.lt_or_ge j k with h | h <;> simp [hj, h, show j - k < 32 by omega]

/-- A row whose mask leaves the low `k` bits free selects a word of its opcode exactly when the `n` bits between are
zero (30_encoding.md R40). -/
theorem selects_iff_field_zero {w : Word} {i : Instr} {k n : Nat} (hc : commandOf w = some i) (hkn : k + n = 28)
    (hm : i.row.mask = BitVec.allOnes 32 <<< k) : i.row.selects w = true ↔ w.extractLsb' k n = 0#n := by
  constructor
  · intro hs
    refine (extractLsb'_of_selects hs ?_).trans ?_ <;> refine BitVec.eq_of_getLsbD_eq fun j hj => ?_
    · rw [hm, BitVec.getLsbD_extractLsb', getLsbD_allOnes_shiftLeft (by omega)]
      simp [hj]
    · simp [hj, getLsbD_row_pattern i (show k + j < 28 by omega)]
  · intro hz
    refine Laws.EncodeRow.selects_of_bits fun j hj => ?_
    rw [hm, getLsbD_allOnes_shiftLeft hj]
    by_cases hfree : j < k
    · simp [hfree, getLsbD_row_pattern i (show j < 28 by omega)]
    · by_cases hfield : j < 28
      · have hw : w.getLsbD j = false := by
          simpa [show j - k < n by omega, show k + (j - k) = j by omega] using congrArg (BitVec.getLsbD · (j - k)) hz
        rw [hw, getLsbD_row_pattern i hfield, Bool.false_and]
      · have hop := congrArg (BitVec.getLsbD · (j - 28)) (opField_of_commandOf hc)
        simpa [opField, show j - 28 < 4 by omega, show 28 + (j - 28) = j by omega, show k ≤ j by omega] using hop

/-- The decoder on a word whose opcode names such a command (30_encoding.md R43); `m` is the row's mask. -/
theorem decode_eq_ite_field_zero {w m : Word} {i : Instr} {k n : Nat} (hc : commandOf w = some i) (hkn : k + n = 28)
    (hrow : i.row.mask = m) (hm : m = BitVec.allOnes 32 <<< k) :
    decode w = if w.extractLsb' k n = 0 then .command i else .rsvNonzero := by
  rw [decode, hc]
  exact if_congr (selects_iff_field_zero hc hkn (hrow.trans hm)) rfl rfl

end Sys2Proof

namespace Sys2Proof.Safety

open Sys2Proof.Machine

/-- Settles O2: a seed has no check to fail, and the 12 bits above it must be zero. -/
theorem crcSeedLoadsAcc : Obligations.CrcSeedLoadsAcc := by
  refine ⟨fun s v => rfl, fun w hop => ?_⟩
  have hc : commandOf w = some (.crcSeed (imm16Field w)) := by rw [commandOf, opField, hop]; rfl
  exact decode_eq_ite_field_zero (m := 0xFFFF0000#32) hc rfl rfl (by decide)

/-- Settles O3: `ACC_V` is the one check of `CRC_BYTE`, and the 20 bits above the byte must be zero. -/
theorem crcByteStepsAcc : Obligations.CrcByteStepsAcc := by
  refine ⟨fun s b hv => exec_eq_of_ready (fun _ => hv) nofun, fun s b hv => exec_of_unseeded rfl hv, fun w hop => ?_⟩
  have hc : commandOf w = some (.crcByte (imm8Field w)) := by rw [commandOf, opField, hop]; rfl
  exact decode_eq_ite_field_zero (m := 0xFFFFFF00#32) hc rfl rfl (by decide)

/-- Settles O4: `ACC_V` is the one check of `CRC_READ`, and every bit below its opcode must be zero. -/
theorem crcReadRespondsAcc : Obligations.CrcReadRespondsAcc := by
  refine ⟨fun s hv => exec_eq_of_ready (fun _ => hv) nofun, fun s hv => exec_of_unseeded rfl hv, fun w hop => ?_⟩
  have hc : commandOf w = some .crcRead := by rw [commandOf, opField, hop]; rfl
  exact decode_eq_ite_field_zero (m := 0xFFFFFFFF#32) hc rfl rfl (by decide)

end Sys2Proof.Safety
end

section
/-! The laws of the CRC function (40_crc.md R55 to R57): it is a fold, each step is linear over XOR, and the loop loses
no bit of the accumulator. -/

namespace Sys2Proof.Machine

/-! ### A fold from the left (40_crc.md R49) -/

theorem crc16_eq_foldl (bs : List (BitVec 8)) (s : BitVec 16) : crc16 bs s = bs.foldl crcStep s := by
  induction bs generalizing s with
  | nil => rfl
  | cons b bs ih => rw [crc16, ih, List.foldl_cons]

/-- Settles O40: a fold over two lists in turn. -/
theorem crcChains : Obligations.CrcChains := by
  intro bs cs s
  rw [crc16_eq_foldl, List.foldl_append, ← crc16_eq_foldl, ← crc16_eq_foldl]

/-! ### Linearity (40_crc.md R56) -/

theorem crcShift_eq_xor (a : BitVec 16) : crcShift a = a <<< 1 ^^^ if a.getLsbD 15 then Config.poly else 0#16 := by
  rw [crcShift]
  split <;> simp

/-- The polynomial is XORed in for each operand with bit 15 set, so not at all where both have it set. -/
theorem crcShift_xor (a b : BitVec 16) : crcShift (a ^^^ b) = crcShift a ^^^ crcShift b := by
  have hpoly (p q : Bool) : (if p ^^ q then Config.poly else 0#16) =
      (if p then Config.poly else 0#16) ^^^ if q then Config.poly else 0#16 := by
    cases p <;> cases q <;> decide
  rw [crcShift_eq_xor, crcShift_eq_xor, crcShift_eq_xor, BitVec.getLsbD_xor, hpoly, BitVec.shiftLeft_xor_distrib]
  ac_rfl

theorem crcIterate_xor (n : Nat) (a b : BitVec 16) : crcIterate n (a ^^^ b) = crcIterate n a ^^^ crcIterate n b := by
  induction n generalizing a b with
  | zero => rfl
  | succ n ih => rw [crcIterate, crcIterate, crcIterate, crcShift_xor, ih]

theorem crcStep_xor (s₁ s₂ : BitVec 16) (a b : BitVec 8) :
    crcStep (s₁ ^^^ s₂) (a ^^^ b) = crcStep s₁ a ^^^ crcStep s₂ b := by
  rw [crcStep, crcStep, crcStep, ← crcIterate_xor, BitVec.setWidth_xor, BitVec.shiftLeft_xor_distrib]
  congr 1
  ac_rfl

theorem crc16_xor {as bs : List (BitVec 8)} (h : as.length = bs.length) (s₁ s₂ : BitVec 16) :
    crc16 (List.zipWith (· ^^^ ·) as bs) (s₁ ^^^ s₂) = crc16 as s₁ ^^^ crc16 bs s₂ := by
  induction as generalizing bs s₁ s₂ with
  | nil =>
    obtain rfl := List.eq_nil_of_length_eq_zero h.symm
    rfl
  | cons a as ih =>
    cases bs with
    | nil => cases h
    | cons b bs => rw [List.zipWith_cons_cons, crc16, crc16, crc16, crcStep_xor, ih (Nat.succ.inj h)]

theorem crc16_replicate_zero (n : Nat) : crc16 (List.replicate n 0) 0 = 0 := by
  induction n with
  | zero => rfl
  | succ n ih => rw [List.replicate_succ, crc16, show crcStep 0 0 = 0 by decide, ih]

/-- Settles O41: each step is XOR and shift; the third identity is the first with a seed 0 for the error. -/
theorem crcIsLinear : Obligations.CrcIsLinear := by
  refine ⟨fun as bs s₁ s₂ h => crc16_xor h s₁ s₂, crc16_replicate_zero, fun as es s h => ?_⟩
  simpa using crc16_xor h s 0

/-! ### Error detection (40_crc.md R57) -/

/-- The polynomial has a constant term, so a bit that is shifted out comes back as bit 0: no value but 0 goes to 0. -/
theorem eq_zero_of_crcShift_eq_zero {a : BitVec 16} (h : crcShift a = 0#16) : a = 0#16 := by
  rw [crcShift] at h
  split at h
  next htop => simpa [Config.poly] using congrArg (BitVec.getLsbD · 0) h
  next htop =>
    refine BitVec.eq_of_getLsbD_eq fun i hi => ?_
    by_cases hi15 : i = 15
    · simpa [hi15] using htop
    · simpa [BitVec.getLsbD_eq_getElem hi, show i + 1 < 16 by omega] using congrArg (BitVec.getLsbD · (i + 1)) h

theorem crcShift_injective : Function.Injective crcShift := by
  intro a b h
  have hz : crcShift (a ^^^ b) = 0#16 := by rw [crcShift_xor, h, BitVec.xor_self]
  exact BitVec.xor_eq_zero_iff.mp (eq_zero_of_crcShift_eq_zero hz)

theorem crcIterate_injective (n : Nat) : Function.Injective (crcIterate n) := by
  induction n with
  | zero => exact fun _ _ h => h
  | succ n ih => exact ih.comp crcShift_injective

theorem crcStep_left_injective (b : BitVec 8) : Function.Injective (crcStep · b) :=
  fun _ _ h => (BitVec.xor_left_inj _).mp (crcIterate_injective 8 h)

theorem crcStep_right_injective (acc : BitVec 16) : Function.Injective (crcStep acc) := by
  intro b c h
  have hbyte := (BitVec.xor_right_inj _).mp (crcIterate_injective 8 h)
  refine BitVec.eq_of_getLsbD_eq fun i hi => ?_
  simpa [hi, show 8 + i < 16 by omega] using congrArg (BitVec.getLsbD · (8 + i)) hbyte

theorem crc16_injective (bs : List (BitVec 8)) : Function.Injective (crc16 bs) := by
  induction bs with
  | nil => exact fun _ _ h => h
  | cons b bs ih => exact ih.comp (crcStep_left_injective b)

/-- Two messages that differ in one byte leave that byte with different accumulators, which the rest keeps apart. -/
theorem crc16_set_ne {bs : List (BitVec 8)} {k : Nat} (hk : k < bs.length) {b : BitVec 8} (hb : b ≠ bs[k])
    (seed : BitVec 16) : crc16 (bs.set k b) seed ≠ crc16 bs seed := by
  induction bs generalizing k seed with
  | nil => cases hk
  | cons c bs ih =>
    cases k with
    | zero => exact fun h => hb (crcStep_right_injective seed (crc16_injective bs h))
    | succ k => exact ih (Nat.lt_of_succ_lt_succ hk) hb (crcStep seed c)

/-- Settles O42: a byte with one bit flipped is another byte. -/
theorem singleBitErrorChangesCrc : Obligations.SingleBitErrorChangesCrc := by
  intro bs seed k j hk hj
  refine crc16_set_ne hk (fun h => ?_) seed
  simpa [hj] using congrArg (BitVec.getLsbD · j) h

end Sys2Proof.Machine
end

section
/-! `crc_step` as a remainder of polynomials over GF(2) (40_crc.md R54): XOR is addition, one iteration of the loop is
multiplication by `x` modulo `G`. -/

namespace Sys2Proof.Machine

open Polynomial

/-! ### A word as a polynomial -/

/-- The polynomial whose coefficient of `x^i` is bit `i` (40_crc.md R54). -/
noncomputable def bitsPoly {n : Nat} (v : BitVec n) : (ZMod 2)[X] :=
  ∑ i ∈ Finset.range n, if v.getLsbD i then X ^ i else 0

/-- The divisor `G(x)` of 40_crc.md R54. -/
noncomputable def generator : (ZMod 2)[X] := X ^ 16 + X ^ 12 + X ^ 5 + 1

theorem X_pow_mul_bitsPoly {n : Nat} (k : Nat) (v : BitVec n) :
    X ^ k * bitsPoly v = ∑ i ∈ Finset.range n, if v.getLsbD i then X ^ (i + k) else 0 := by
  rw [bitsPoly, Finset.mul_sum]
  refine Finset.sum_congr rfl fun i _ => ?_
  rw [mul_ite, mul_zero, ← pow_add, add_comm]

/-- XOR is addition: where both bits are set, the two terms cancel. -/
theorem bitsPoly_xor {n : Nat} (a b : BitVec n) : bitsPoly (a ^^^ b) = bitsPoly a + bitsPoly b := by
  rw [bitsPoly, bitsPoly, bitsPoly, ← Finset.sum_add_distrib]
  refine Finset.sum_congr rfl fun i _ => ?_
  rw [BitVec.getLsbD_xor]
  cases a.getLsbD i <;> cases b.getLsbD i <;> simp [CharTwo.add_self_eq_zero]

/-- Multiplication by `x` is the left shift, with the bit shifted out as the coefficient of `x^n`. -/
theorem X_mul_bitsPoly {n : Nat} (a : BitVec (n + 1)) :
    X * bitsPoly a = bitsPoly (a <<< 1) + if a.getLsbD n then X ^ (n + 1) else 0 := by
  have hshift : bitsPoly (a <<< 1) = ∑ i ∈ Finset.range n, if a.getLsbD i then X ^ (i + 1) else 0 := by
    rw [bitsPoly, Finset.sum_range_succ']
    refine (add_eq_left.mpr (by simp)).trans (Finset.sum_congr rfl fun i hi => ?_)
    simp [Nat.lt_succ_of_lt (Finset.mem_range.mp hi), Finset.mem_range.mp hi]
  rw [hshift, ← Finset.sum_range_succ, ← X_pow_mul_bitsPoly, pow_one]

/-- Shifted into a word wide enough, no bit is lost: multiplication by `x^k`. -/
theorem bitsPoly_setWidth_shiftLeft {n k : Nat} (b : BitVec n) :
    bitsPoly (b.setWidth (k + n) <<< k) = X ^ k * bitsPoly b := by
  rw [X_pow_mul_bitsPoly, bitsPoly, Finset.sum_range_add, Finset.sum_eq_zero, zero_add]
  · refine Finset.sum_congr rfl fun i hi => ?_
    have hin := Finset.mem_range.mp hi
    simp [add_comm, hin, show k + i < n + k by omega]
  · intro i hi
    simp [Finset.mem_range.mp hi]

theorem X_pow_add_bitsPoly_poly : X ^ 16 + bitsPoly Config.poly = generator := by
  have hbits : bitsPoly Config.poly = 1 + X ^ 5 + X ^ 12 := by simp [bitsPoly, Config.poly, Finset.sum_range_succ]
  rw [hbits, generator]
  ring

/-! ### Reduction modulo the generator -/

/-- The bit shifted out has the weight `x^16`, which the polynomial XORed in replaces. -/
theorem generator_dvd_crcShift (a : BitVec 16) : generator ∣ X * bitsPoly a - bitsPoly (crcShift a) := by
  rw [X_mul_bitsPoly, crcShift_eq_xor, bitsPoly_xor]
  split
  · rw [add_sub_add_left_eq_sub, CharTwo.sub_eq_add, X_pow_add_bitsPoly_poly]
  · simp [bitsPoly]

theorem generator_dvd_crcIterate (n : Nat) (a : BitVec 16) :
    generator ∣ X ^ n * bitsPoly a - bitsPoly (crcIterate n a) := by
  induction n generalizing a with
  | zero => simp [crcIterate]
  | succ n ih =>
    have hstep : X ^ (n + 1) * bitsPoly a - bitsPoly (crcIterate (n + 1) a) =
        X ^ n * (X * bitsPoly a - bitsPoly (crcShift a)) +
          (X ^ n * bitsPoly (crcShift a) - bitsPoly (crcIterate n (crcShift a))) := by
      rw [crcIterate]; ring
    rw [hstep]
    exact dvd_add (dvd_mul_of_dvd_right (generator_dvd_crcShift a) _) (ih (crcShift a))

/-- Settles O43: the eight iterations multiply `acc + b * x^8` by `x^8`, modulo `G`. -/
theorem crcStepIsPolynomialRemainder : Obligations.CrcStepIsPolynomialRemainder := by
  intro acc b
  have hbyte : bitsPoly (b.setWidth 16 <<< 8) = X ^ 8 * bitsPoly b := bitsPoly_setWidth_shiftLeft b
  obtain ⟨q, hq⟩ := generator_dvd_crcIterate 8 (acc ^^^ (b.setWidth 16 <<< 8))
  rw [bitsPoly_xor, hbyte, sub_eq_iff_eq_add] at hq
  refine ⟨q, ?_⟩
  rw [← X_pow_mul_bitsPoly, ← X_pow_mul_bitsPoly]
  calc X ^ 8 * bitsPoly acc + X ^ 16 * bitsPoly b
    _ = X ^ 8 * (bitsPoly acc + X ^ 8 * bitsPoly b) := by ring
    _ = q * generator + bitsPoly (crcStep acc b) := by rw [hq, mul_comm, crcStep]

end Sys2Proof.Machine
end

section
/-! The command sequence of 40_crc.md R53: a seeded block carries `crc16` in `ACC` over words that do not
seed it. -/

namespace Sys2Proof.Safety

open Sys2Proof.Machine

/-! ### The bytes a list of words feeds -/

theorem messageBytes_cons_of_crcByte {w : Word} {b : BitVec 8} (h : decode w = .command (.crcByte b)) (ws : List Word) :
    messageBytes (w :: ws) = b :: messageBytes ws := by
  simp only [messageBytes, h]

theorem messageBytes_cons_of_ne {w : Word} (h : ∀ b, decode w ≠ .command (.crcByte b)) (ws : List Word) :
    messageBytes (w :: ws) = messageBytes ws := by
  rw [messageBytes]
  split
  next b hb => exact absurd hb (h b)
  next => rfl

/-! ### `ACC` over a run of words -/

/-- In a seeded block one word feeds `ACC` the byte it stands for, if any, and leaves the rest of the message to the
words behind it. -/
theorem crc16_acc_of_runWord {w : Word} {s t : State} (h : runWord w s = .next t)
    (hseed : ∀ v, decode w ≠ .command (.crcSeed v)) (hv : s.accV = true) (ws : List Word) :
    crc16 (messageBytes ws) t.acc = crc16 (messageBytes (w :: ws)) s.acc := by
  obtain ⟨-, hbyte, hother⟩ := acc_of_runWord h
  by_cases hd : ∃ b, decode w = .command (.crcByte b)
  · obtain ⟨b, hb⟩ := hd
    rw [messageBytes_cons_of_crcByte hb, crc16, hbyte b hb, if_pos hv]
  · have hne := not_exists.mp hd
    rw [messageBytes_cons_of_ne hne, hother hseed hne]

theorem acc_of_run_words {ws : List Word} (hseed : ∀ w ∈ ws, ∀ v, decode w ≠ .command (.crcSeed v)) {s t : State}
    (hv : s.accV = true) {rest : List PortEvent}
    (h : Host.Core.run Sys2Proof.core ws.length (s.takeEvent (ws.map .command ++ rest)) = .next (t.takeEvent rest)) :
    t.acc = crc16 (messageBytes ws) s.acc ∧ t.accV = true := by
  induction ws generalizing s with
  | nil =>
    have hst : s.takeEvent rest = t.takeEvent rest := Host.Outcome.next.inj h
    have hacc := congrArg State.acc hst
    have haccV := congrArg State.accV hst
    exact ⟨hacc.symm, haccV.symm.trans hv⟩
  | cons w ws ih =>
    obtain ⟨hw, hws⟩ := List.forall_mem_cons.mp hseed
    obtain ⟨u, hu⟩ := exists_runWord_eq_next w s
    have hrun := (core_run_succ (step_takeEvent_command hu _) ws.length).symm.trans h
    rw [← crc16_acc_of_runWord hu hw hv ws]
    exact ih hws (((accV_of_runWord hu).2 hw).trans hv) hrun

/-! ### The sequence -/

/-- A run that answers a next state goes on from there. -/
theorem run_add (M : Host.Core) {m : Nat} (k : Nat) {s t : M.State} (h : M.run m s = .next t) :
    M.run (m + k) s = M.run k t := by
  induction m generalizing s with
  | zero => rw [← Host.Outcome.next.inj h, Nat.zero_add]
  | succ m ih =>
    rw [Nat.add_right_comm, Host.Core.run]
    rw [Host.Core.run] at h
    split at h
    next u hu => exact ih h
    next => cases h
    next => cases h

/-- Settles O44: the seed starts the message, the words between keep `ACC` the CRC of the bytes fed so far, and the
read responds it. -/
theorem commandSequenceComputesCrc : Obligations.CommandSequenceComputesCrc := by
  intro s seed ws hin hseed
  obtain ⟨t, rs, hlen, hout, herr, hrun⟩ := exists_run_words_then ws ((s.seedAcc seed).respond 0)
  obtain ⟨hacc, hv⟩ := acc_of_run_words hseed rfl (hrun [.command (encode .crcRead)])
  have hfirst : runWord (encode (.crcSeed seed)) s = .next ((s.seedAcc seed).respond 0) :=
    runWord_of_command (decodeOfEncode _) s
  have hlast : runWord (encode .crcRead) t = .next (t.respond (zext32 t.acc)) :=
    (runWord_of_command (decodeOfEncode _) t).trans (exec_eq_of_ready (fun _ => hv) nofun)
  refine ⟨(t.respond (zext32 t.acc)).takeEvent [], ⟨false, 0⟩ :: rs, ?_, hacc, hv, congrArg Nat.succ hlen, herr, ?_⟩
  · rw [issueWords_eq_takeEvent hin, List.cons_append, List.map_cons, List.map_append]
    calc Host.Core.run Sys2Proof.core (ws.length + 2) _
      _ = Host.Core.run Sys2Proof.core (ws.length + 1) _ := core_run_succ (step_takeEvent_command hfirst _) _
      _ = Host.Core.run Sys2Proof.core 1 _ := run_add Sys2Proof.core 1 (hrun _)
      _ = .next _ := core_run_succ (step_takeEvent_command hlast []) 0
  · rw [State.takeEvent_outbox, State.respond_outbox, hout, hacc]
    simp [zext32]

end Sys2Proof.Safety
end

section
/-! The words of the two trailer byte commands, whose index stands above bits that must be zero (30_encoding.md R40). -/

namespace Sys2Proof

/-- A part of a field that is zero is zero. -/
theorem extractLsb'_eq_zero_of_subfield {w : Word} {k n k' n' : Nat} (h : w.extractLsb' k n = 0#n) (hk : k ≤ k')
    (hn : k' + n' ≤ k + n) : w.extractLsb' k' n' = 0#n' := by
  refine BitVec.eq_of_getLsbD_eq fun j hj => ?_
  have hbit := congrArg (BitVec.getLsbD · (k' - k + j)) h
  simpa [hj, show k' - k + j < n by omega, show k + (k' - k + j) = k' + j by omega] using hbit

/-- A word whose reserved fields are zero is made of its opcode, its index and its immediate (30_encoding.md R38). -/
theorem commandWord_fields {w : Word} (hhigh : w.extractLsb' 26 2 = 0#2) (hlow : w.extractLsb' 16 8 = 0#8) :
    commandWord (opField w) (idxField w) (imm16Field w) = w := by
  rw [commandWord, ← hhigh, ← hlow, append_fields]

theorem selects_of_encode_eq {w : Word} {i : Instr} (h : encode i = w) : i.row.selects w = true :=
  (decode_eq_command_iff.mp (decode_eq_command_iff_encode.mpr h)).2

theorem selects_trlReadByte_iff {w : Word} (hop : opField w = 0x8#4) :
    (Instr.trlReadByte (idxField w)).row.selects w = true ↔ w.extractLsb' 26 2 = 0#2 ∧ w.extractLsb' 0 24 = 0#24 := by
  constructor
  · intro hs
    exact ⟨zeroField_of_selects hs (by decide) (by decide), zeroField_of_selects hs (by decide) (by decide)⟩
  · rintro ⟨hhigh, hlow⟩
    have himm : imm16Field w = 0#16 := extractLsb'_eq_zero_of_subfield hlow (by decide) (by decide)
    refine selects_of_encode_eq ?_
    have hw := commandWord_fields hhigh (extractLsb'_eq_zero_of_subfield hlow (by decide) (by decide))
    rwa [hop, himm] at hw

theorem selects_trlWriteByte_iff {w : Word} (hop : opField w = 0x7#4) :
    (Instr.trlWriteByte (idxField w) (imm8Field w)).row.selects w = true ↔
      w.extractLsb' 26 2 = 0#2 ∧ w.extractLsb' 8 16 = 0#16 := by
  constructor
  · intro hs
    exact ⟨zeroField_of_selects hs (by decide) (by decide), zeroField_of_selects hs (by decide) (by decide)⟩
  · rintro ⟨hhigh, hlow⟩
    have himm := setWidth_imm8Field (extractLsb'_eq_zero_of_subfield hlow (k' := 8) (n' := 8) (by decide) (by decide))
    refine selects_of_encode_eq ?_
    have hw := commandWord_fields hhigh (extractLsb'_eq_zero_of_subfield hlow (by decide) (by decide))
    rwa [hop, ← himm] at hw

/-- The decoder on a word whose opcode names a command: the row's must-be-zero bits are the second check (30_encoding.md
R43). -/
theorem decode_eq_ite_of_selects_iff {w : Word} {i : Instr} {p : Prop} [Decidable p] (hc : commandOf w = some i)
    (hp : i.row.selects w = true ↔ p) : decode w = if p then .command i else .rsvNonzero := by
  rw [decode, hc]
  exact if_congr hp rfl rfl

/-- The decoder on a word whose opcode names a command without operands. -/
theorem decode_eq_ite_no_operand {w : Word} {i : Instr} (hc : commandOf w = some i) (hm : i.row.mask = 0xFFFFFFFF#32) :
    decode w = if w.extractLsb' 0 28 = 0 then .command i else .rsvNonzero :=
  decode_eq_ite_field_zero hc rfl hm (by decide)

end Sys2Proof
end

section
/-! The trailer codec commands (41_trailer.md R60 to R68): what each answers, and the words it has. -/

namespace Sys2Proof.Safety

open Sys2Proof.Machine

/-! ### The commands that write the trailer -/

/-- `TRL_SET_NID` and its frame, in the fields of the state. -/
theorem respond_putNid_eq (s : State) (v : BitVec 16) : (s.putNid v).respond 0 =
    { s with
      tr := (s.tr.set 0 (loByte v)).set 1 (hiByte v)
      trV := s.trV ||| 0b0011#4
      outbox := s.outbox ++ [⟨false, 0⟩] } := by
  rw [← show (s.putNid v).trV = s.trV ||| 0b0011#4 from State.putNid_trV s v]
  rfl

/-- `TRL_SET_CRC` and its frame, in the fields of the state. -/
theorem respond_putTcrc_eq (s : State) (v : BitVec 16) : (s.putTcrc v).respond 0 =
    { s with
      tr := (s.tr.set 2 (loByte v)).set 3 (hiByte v)
      trV := s.trV ||| 0b1100#4
      outbox := s.outbox ++ [⟨false, 0⟩] } := by
  rw [← show (s.putTcrc v).trV = s.trV ||| 0b1100#4 from State.putTcrc_trV s v]
  rfl

/-- Settles O5: no check can fail, and the 12 bits above the network ID must be zero. -/
theorem trlSetNidWritesLowPair : Obligations.TrlSetNidWritesLowPair := by
  refine ⟨fun s v => congrArg _ (respond_putNid_eq s v), fun w hop => ?_⟩
  have hc : commandOf w = some (.trlSetNid (imm16Field w)) := by rw [commandOf, opField, hop]; rfl
  exact decode_eq_ite_field_zero (m := 0xFFFF0000#32) hc rfl rfl (by decide)

/-- Settles O6: no check can fail, and the 12 bits above the CRC must be zero. -/
theorem trlSetCrcWritesHighPair : Obligations.TrlSetCrcWritesHighPair := by
  refine ⟨fun s v => congrArg _ (respond_putTcrc_eq s v), fun w hop => ?_⟩
  have hc : commandOf w = some (.trlSetCrc (imm16Field w)) := by rw [commandOf, opField, hop]; rfl
  exact decode_eq_ite_field_zero (m := 0xFFFF0000#32) hc rfl rfl (by decide)

/-- Settles O7: `ACC_V` is the one check, and a copy of `ACC` writes what `TRL_SET_CRC` writes. -/
theorem trlCrcFromAccCopiesAcc : Obligations.TrlCrcFromAccCopiesAcc := by
  refine ⟨fun s hv => ?_, fun s hv => exec_of_unseeded rfl hv, fun w hop => ?_⟩
  · have hcopy : exec .trlCrcFromAcc s = .next ((s.putTcrc s.acc).respond 0) := exec_eq_of_ready (fun _ => hv) nofun
    exact hcopy.trans (congrArg _ (respond_putTcrc_eq s s.acc))
  · exact decode_eq_ite_no_operand (by rw [commandOf, opField, hop]; rfl) rfl

theorem byteMask_eq_twoPow (i : BitVec 2) : byteMask i = BitVec.twoPow 4 i.toNat := by
  revert i; decide

/-- Settles O9: the bit set is the one bit of the byte's mask, and the index is the only field above the byte that may
be nonzero. -/
theorem trlWriteByteWritesByte : Obligations.TrlWriteByteWritesByte := by
  refine ⟨fun s i b => ?_, fun w hop => ?_⟩
  · rw [← show byteMask (BitVec.ofFin i) = BitVec.twoPow 4 i from byteMask_eq_twoPow _]
    rfl
  · have hc : commandOf w = some (.trlWriteByte (idxField w) (imm8Field w)) := by rw [commandOf, opField, hop]; rfl
    exact decode_eq_ite_of_selects_iff hc (selects_trlWriteByte_iff hop)

/-! ### The commands that read the trailer -/

/-- A command that lacks one of the trailer bytes it needs faults (60_exceptions.md R79). -/
theorem exec_of_not_all_valid {i : Instr} {s : State} (h : ¬ ∀ j, needsTrailerByte i j = true → TrailerByteValid s j) :
    exec i s = .next (s.raiseFault .trlIncomplete) := by
  obtain ⟨j, hj, hv⟩ : ∃ j, needsTrailerByte i j = true ∧ ¬ TrailerByteValid s j := by simpa using h
  exact exec_of_trlIncomplete hj (Bool.eq_false_iff.mpr hv)

/-- A trailer read under the condition `p` that its bytes are valid. -/
theorem exec_trailerRead_of_iff {i : Instr} {s : State} {p : Prop} (hi : isReadCommand i = true)
    (hacc : readsAcc i = false) (hp : p ↔ ∀ j, needsTrailerByte i j = true → TrailerByteValid s j) :
    (p → exec i s = .next (s.respond (s.readData i))) ∧ (¬ p → exec i s = .next (s.raiseFault .trlIncomplete)) := by
  refine ⟨fun h => ?_, fun h => exec_of_not_all_valid fun hall => h (hp.mpr hall)⟩
  rw [exec_eq_of_ready (fun hr => absurd (hacc.symm.trans hr) (by decide)) (hp.mp h),
    State.effect_of_isReadCommand hi]

theorem trV_low_pair_iff (m : BitVec 4) :
    m.extractLsb' 0 2 = 0b11#2 ↔ ∀ j, needsTrailerByte .trlReadNid j = true → m.getLsbD j.toNat = true := by
  revert m; decide

theorem trV_high_pair_iff (m : BitVec 4) :
    m.extractLsb' 2 2 = 0b11#2 ↔ ∀ j, needsTrailerByte .trlReadCrc j = true → m.getLsbD j.toNat = true := by
  revert m; decide

theorem trV_all_iff (m : BitVec 4) :
    m = 0b1111#4 ↔ ∀ j, needsTrailerByte .trlDecode j = true → m.getLsbD j.toNat = true := by
  revert m; decide

/-- `TRL_READ_BYTE` needs the one byte it reads. -/
theorem valid_iff_needed_trlReadByte {s : State} (i : BitVec 2) :
    TrailerByteValid s i ↔ ∀ j, needsTrailerByte (.trlReadByte i) j = true → TrailerByteValid s j := by
  simp [needsTrailerByte]

/-- Settles O8: the one byte read is checked, and the index is the only field below the opcode that may be nonzero. -/
theorem trlReadByteRespondsByte : Obligations.TrlReadByteRespondsByte := by
  have hread (s : State) (i : BitVec 2) := exec_trailerRead_of_iff rfl rfl (valid_iff_needed_trlReadByte (s := s) i)
  refine ⟨fun s i hv => (hread s (.ofFin i)).1 hv, fun s i hv => (hread s (.ofFin i)).2 (Bool.eq_false_iff.mp hv),
    fun w hop => ?_⟩
  have hc : commandOf w = some (.trlReadByte (idxField w)) := by rw [commandOf, opField, hop]; rfl
  exact decode_eq_ite_of_selects_iff hc (selects_trlReadByte_iff hop)

/-- Settles O10: bytes 0 and 1 are checked, and every bit below the opcode must be zero. -/
theorem trlReadNidRespondsNid : Obligations.TrlReadNidRespondsNid := by
  have hread (s : State) := exec_trailerRead_of_iff (s := s) rfl rfl (trV_low_pair_iff s.trV)
  exact ⟨fun s => (hread s).1, fun s => (hread s).2,
    fun w hop => decode_eq_ite_no_operand (by rw [commandOf, opField, hop]; rfl) rfl⟩

/-- Settles O11: bytes 2 and 3 are checked, and every bit below the opcode must be zero. -/
theorem trlReadCrcRespondsCrc : Obligations.TrlReadCrcRespondsCrc := by
  have hread (s : State) := exec_trailerRead_of_iff (s := s) rfl rfl (trV_high_pair_iff s.trV)
  exact ⟨fun s => (hread s).1, fun s => (hread s).2,
    fun w hop => decode_eq_ite_no_operand (by rw [commandOf, opField, hop]; rfl) rfl⟩

/-- Settles O12: all four bytes are checked, and every bit below the opcode must be zero. -/
theorem trlDecodeRespondsTrailer : Obligations.TrlDecodeRespondsTrailer := by
  have hread (s : State) := exec_trailerRead_of_iff (s := s) rfl rfl (trV_all_iff s.trV)
  exact ⟨fun s => (hread s).1, fun s => (hread s).2,
    fun w hop => decode_eq_ite_no_operand (by rw [commandOf, opField, hop]; rfl) rfl⟩

/-! ### `TRL_CLEAR` -/

/-- Every trailer read needs some byte. -/
theorem exists_needsTrailerByte {i : Instr}
    (h : i = .trlReadNid ∨ i = .trlReadCrc ∨ i = .trlDecode ∨ ∃ j, i = .trlReadByte j) :
    ∃ j, needsTrailerByte i j = true := by
  obtain rfl | rfl | rfl | ⟨j, rfl⟩ := h
  · exact ⟨0, rfl⟩
  · exact ⟨2, rfl⟩
  · exact ⟨0, rfl⟩
  · exact ⟨j, beq_self_eq_true j⟩

theorem runWord_trV_of_not_written {w : Word} {s t : State} {j : BitVec 2} (h : runWord w s = .next t)
    (hw : ∀ i, decode w = .command i → writesTrailerByte i j = false) (hv : s.trV.getLsbD j.toNat = false) :
    t.trV.getLsbD j.toNat = false := by
  by_cases hd : ∃ i, decode w = .command i
  · obtain ⟨i, hi⟩ := hd
    exact exec_trV_of_not_written ((runWord_of_command hi s).symm.trans h) (hw i hi) hv
  · obtain ⟨c, hc⟩ := runWord_of_not_command (not_exists.mp hd) s
    obtain rfl := Host.Outcome.next.inj (h.symm.trans hc)
    exact hv

/-- No step but the word of a command that writes trailer byte `j` makes that byte valid (10_state.md R16). -/
theorem step_trV_of_not_written {s t : State} {j : BitVec 2} (h : step s = .next t)
    (hw : ∀ w rest i, s.inbox = .command w :: rest → decode w = .command i → writesTrailerByte i j = false)
    (hv : s.trV.getLsbD j.toNat = false) : t.trV.getLsbD j.toNat = false := by
  rcases step_cases s with ⟨-, hs⟩ | ⟨w, rest, hin, hs⟩ | ⟨rest, -, hs⟩ | ⟨w, rest, -, hs⟩
  · rwa [← Host.Outcome.next.inj (hs.symm.trans h)]
  · exact runWord_trV_of_not_written (hs.symm.trans h) (hw w rest · hin) hv
  all_goals -- a reset, between commands or during one
    rw [← Host.Outcome.next.inj (hs.symm.trans h), State.applyReset_trV, BitVec.getLsbD_zero]

/-- Settles O13: with `TR_V` clear each read lacks a byte it needs, and a bit that is 0 stays 0 until its byte is
written. -/
theorem trlClearUnwritesTrailer : Obligations.TrlClearUnwritesTrailer := by
  refine ⟨fun s => ⟨_, rfl, rfl, rfl, rfl, rfl, rfl, rfl, fun i hi => ?_⟩, fun s t j hv hstep hw => ?_, fun w hop => ?_⟩
  · obtain ⟨j, hj⟩ := exists_needsTrailerByte hi
    exact exec_of_trlIncomplete hj BitVec.getLsbD_zero
  · have hv' := step_trV_of_not_written hstep hw hv
    exact ⟨hv', fun i hi => exec_of_trlIncomplete hi hv'⟩
  · exact decode_eq_ite_no_operand (by rw [commandOf, opField, hop]; rfl) rfl

end Sys2Proof.Safety
end

section
/-! The trailer codec's round trips, as functions and on the block (41_trailer.md R69, R70), and the frame
(41_trailer.md R58). -/

namespace Sys2Proof.Machine

theorem decodeTrailer_encodeTrailer (nid crc : BitVec 16) : decodeTrailer (encodeTrailer nid crc) = ⟨nid, crc⟩ :=
  congrArg₂ Trailer.mk (join16_hiByte_loByte nid) (join16_hiByte_loByte crc)

theorem encodeTrailer_decodeTrailer (t : Vector (BitVec 8) 4) :
    encodeTrailer (decodeTrailer t).networkId (decodeTrailer t).payloadCrc = t := by
  obtain ⟨b₀, b₁, b₂, b₃, rfl⟩ := exists_bytes t
  simp [encodeTrailer, decodeTrailer]

/-- The bytes of a word made of four bytes, the lowest first (41_trailer.md R67). -/
theorem extractLsb'_join32 (b₃ b₂ b₁ b₀ : BitVec 8) :
    (join32 b₃ b₂ b₁ b₀).extractLsb' 0 8 = b₀ ∧ (join32 b₃ b₂ b₁ b₀).extractLsb' 8 8 = b₁ ∧
    (join32 b₃ b₂ b₁ b₀).extractLsb' 16 8 = b₂ ∧ (join32 b₃ b₂ b₁ b₀).extractLsb' 24 8 = b₃ := by
  have hlow {n : Nat} (x : BitVec n) (b : BitVec 8) : (x ++ b).extractLsb' 0 8 = b := BitVec.extractLsb'_append_eq_right
  have hhigh {n : Nat} (x : BitVec n) (b : BitVec 8) (k : Nat) : (x ++ b).extractLsb' (k + 8) 8 = x.extractLsb' k 8 :=
    BitVec.extractLsb'_append_eq_of_le (Nat.le_add_left 8 k)
  refine ⟨hlow (b₃ ++ b₂ ++ b₁) b₀, ?_, ?_, ?_⟩
  · exact (hhigh (b₃ ++ b₂ ++ b₁) b₀ 0).trans (hlow (b₃ ++ b₂) b₁)
  · exact (hhigh (b₃ ++ b₂ ++ b₁) b₀ 8).trans ((hhigh (b₃ ++ b₂) b₁ 0).trans (hlow b₃ b₂))
  · exact (hhigh (b₃ ++ b₂ ++ b₁) b₀ 16).trans
      ((hhigh (b₃ ++ b₂) b₁ 8).trans ((hhigh b₃ b₂ 0).trans BitVec.extractLsb'_eq_self))

end Sys2Proof.Machine

namespace Sys2Proof.Safety

open Sys2Proof.Machine

/-- Settles O48: the two functions take fields apart and join them, and what the commands write is held until it is
read. -/
theorem trailerRoundTrips : Obligations.TrailerRoundTrips := by
  refine ⟨decodeTrailer_encodeTrailer, encodeTrailer_decodeTrailer, fun s n c => ?_, fun s t₀ t₁ t₂ t₃ => ?_⟩
  · have hdecode := exec_trlDecode_of_holdsTrailer (holdsTrailer_writeTrailer s n c)
    rw [decodeTrailer_encodeTrailer] at hdecode
    refine ⟨_, (execAll_append (js := [.trlDecode]) (execAll_encodeTrailer s n c)).trans (execAll_cons hdecode []),
      rfl, ?_⟩
    simp [writeTrailer]
  · obtain ⟨u, hu, herr, -, hheld⟩ := exists_execAll_clear_write s t₀ t₁ t₂ t₃
    exact ⟨u, hu, herr, exec_trlReadByte_of_holdsByte (hheld 0), exec_trlReadByte_of_holdsByte (hheld 1),
      exec_trlReadByte_of_holdsByte (hheld 2), exec_trlReadByte_of_holdsByte (hheld 3)⟩

/-! ### An ACK echoes the trailer -/

theorem holdsTrailer_of_trV_all {s : State} (h : s.trV = 0b1111#4) : HoldsTrailer s s.tr := fun i =>
  ⟨(trV_all_iff s.trV).mp h i rfl, rfl⟩

theorem exec_trlDecode_of_trV_all {s : State} (h : s.trV = 0b1111#4) :
    exec .trlDecode s = .next (s.respond s.trailerWord) := trlDecodeRespondsTrailer.1 s h

/-- The trailer's bytes, in wire order, are those of the word it decodes to (41_trailer.md R67). -/
theorem tr_eq_bytes_of_trailerWord (s : State) :
    s.tr = #v[s.trailerWord.extractLsb' 0 8, s.trailerWord.extractLsb' 8 8, s.trailerWord.extractLsb' 16 8,
      s.trailerWord.extractLsb' 24 8] := by
  obtain ⟨h₀, h₁, h₂, h₃⟩ := extractLsb'_join32 (s.trByte 3#2) (s.trByte 2#2) (s.trByte 1#2) (s.trByte 0#2)
  rw [State.trailerWord, h₀, h₁, h₂, h₃]
  refine Vector.ext fun i hi => ?_
  interval_cases i <;> rfl

theorem trailerWord_eq_iff (s t : State) : s.trailerWord = t.trailerWord ↔ s.tr = t.tr := by
  refine ⟨fun h => ?_, fun h => by simp only [State.trailerWord, State.trByte, h]⟩
  rw [tr_eq_bytes_of_trailerWord s, tr_eq_bytes_of_trailerWord t, h]

/-- Settles O49: the decode responds the trailer's word, the byte reads respond its bytes, and a word is its bytes. -/
theorem ackEchoesTrailer : Obligations.AckEchoesTrailer := by
  refine ⟨fun s hv => ⟨s.trailerWord, ?_⟩, fun s t hs ht => ⟨s.trailerWord, t.trailerWord,
    exec_trlDecode_of_trV_all hs, exec_trlDecode_of_trV_all ht, trailerWord_eq_iff s t⟩⟩
  have hheld := holdsTrailer_of_trV_all hv
  rw [tr_eq_bytes_of_trailerWord s] at hheld
  have hemit := execAll_emitTrailer (hheld.respond s.trailerWord)
  refine ((execAll_cons (exec_trlDecode_of_trV_all hv) _).trans hemit).trans ?_
  simp [State.respond, zext32]

/-! ### The frame -/

/-- A frame's last four bytes are a trailer's exactly when they are the encoding of its fields. -/
theorem encodeTrailer_of_frameBytes_eq {noCrc : Bool} {nid : BitVec 16} {payload : List (BitVec 8)}
    {t₀ t₁ t₂ t₃ : BitVec 8} (h : frameBytes noCrc nid payload = payload ++ [t₀, t₁, t₂, t₃]) :
    #v[t₀, t₁, t₂, t₃] =
      encodeTrailer nid (if noCrc then Config.placeholderCrc else crc16 payload Config.protocolSeed) :=
  Vector.toList_inj.mp (List.append_cancel_left h).symm

/-- The sender's commands, on any state: the CRC of the payload in `ACC`, and both fields written from it. -/
theorem execAll_buildTrailer (s : State) (seed nid : BitVec 16) (payload : List (BitVec 8)) : ∃ u : State,
    execAll ([.crcSeed seed] ++ payload.map .crcByte ++ expandPseudo (.encodeTrailerAcc nid)) s = .next u ∧
      u.err = s.err ∧ u.outbox = s.outbox ++ List.replicate (payload.length + 3) ⟨false, 0⟩ ∧
      HoldsTrailer u (encodeTrailer nid (crc16 payload seed)) := by
  have hfeed : execAll ([.crcSeed seed] ++ payload.map .crcByte) s = .next _ :=
    execAll_crcBytes payload ((s.seedAcc seed).respond 0) rfl
  refine ⟨_, (execAll_append hfeed).trans (execAll_encodeTrailerAcc rfl nid), rfl, ?_, holdsTrailer_writeTrailer _ _ _⟩
  simp [writeTrailer, List.replicate_succ', ← List.replicate_succ]

/-- `run_issueCommands_of_execAll` with the number of commands named. -/
theorem run_issueCommands_of_length {n : Nat} {is : List Instr} {s t : State} (hin : s.inbox = []) (hlen : is.length = n)
    (h : execAll is s = .next t) : Host.Core.run Sys2Proof.core n (s.issueCommands is) = .next (t.takeEvent []) :=
  hlen ▸ run_issueCommands_of_execAll hin h

/-- Settles O52: the sender emits the encoding of the payload's CRC, and the receiver decodes what was encoded. -/
theorem frameIsBuiltAndChecked : Obligations.FrameIsBuiltAndChecked := by
  refine ⟨fun s nid payload hin => ?_, fun s noCrc nid payload t₀ t₁ t₂ t₃ hin hframe => ?_⟩
  · obtain ⟨u, hu, herr, hout, hheld⟩ := execAll_buildTrailer s Config.protocolSeed nid payload
    have hall := (execAll_append hu).trans (execAll_emitTrailer hheld)
    exact ⟨_, List.replicate (payload.length + 3) ⟨false, 0⟩, _,
      run_issueCommands_of_length hin (by simp [expandPseudo]) hall, herr, List.length_replicate,
      congrArg (· ++ _) hout, rfl⟩
  · obtain ⟨u, hu, herr, hout⟩ := exists_execAll_decodeTrailer s t₀ t₁ t₂ t₃
    have hall := (execAll_append hu).trans (execAll_crc16 u Config.protocolSeed payload)
    rw [encodeTrailer_of_frameBytes_eq hframe, decodeTrailer_encodeTrailer] at hout
    refine ⟨_, _, _, run_issueCommands_of_length hin (by simp [expandPseudo]) hall, herr,
      congrArg (· ++ _ ++ _) hout, BitVec.extractLsb'_append_eq_right, BitVec.extractLsb'_append_eq_left.trans ?_⟩
    cases noCrc with
    | true => rfl
    | false => simp [zext32]

end Sys2Proof.Safety
end

section
/-! The control commands (42_control.md R71, R72): what each answers, and the words it has. -/

namespace Sys2Proof

/-- The row of `NOP` checks all 32 bits, so it selects its pattern alone. -/
theorem selects_nop_iff {w : Word} : Instr.nop.row.selects w = true ↔ w = 0 := by
  rw [selects_iff, show Instr.nop.row.mask = BitVec.allOnes 32 from rfl, BitVec.and_allOnes]
  rfl

end Sys2Proof

namespace Sys2Proof.Machine

/-- `STATUS` is `{ERR, 0b000, ACC_V, TR_V}` extended to a word (10_state.md R18): zeros in front of the topmost field
do not change the value. -/
theorem statusWord_eq_setWidth (err : BitVec 4) (accV : Bool) (trV : BitVec 4) :
    statusWord err accV trV = (err ++ 0b000#3 ++ BitVec.ofBool accV ++ trV).setWidth 32 := by
  refine BitVec.eq_of_toNat_eq ?_
  rw [BitVec.toNat_setWidth_of_le (by decide)]
  simp only [statusWord, toNat_append_eq_add, BitVec.toNat_zero, Nat.zero_mul, Nat.zero_add]

end Sys2Proof.Machine

namespace Sys2Proof.Safety

open Sys2Proof.Machine

/-- Settles O1: `NOP` has no check to fail, and the 28 bits below its opcode 0 must be zero. -/
theorem nopOnlyResponds : Obligations.NopOnlyResponds := by
  refine ⟨fun s => rfl, fun w hop => ?_⟩
  have hc : commandOf w = some .nop := by rw [commandOf, opField, hop]; rfl
  exact decode_eq_ite_of_selects_iff hc selects_nop_iff

/-- Settles O14: no check can fail, the response is the status word, and every bit below the opcode must be zero. -/
theorem statReadRespondsStatus : Obligations.StatReadRespondsStatus := by
  refine ⟨fun s => ?_, fun w hop => decode_eq_ite_no_operand (by rw [commandOf, opField, hop]; rfl) rfl⟩
  rw [← statusWord_eq_setWidth]
  rfl

end Sys2Proof.Safety
end

section
/-! The codes of 60_exceptions.md R75: every way a step ends keeps the reserved codes out of `ERR` and of the
responses. -/

namespace Sys2Proof.Safety

open Sys2Proof.Machine

theorem listedCode_code (c : ErrorCode) : ListedCode c.code := by
  cases c <;> decide

theorem listedCode_stickyErr {old : BitVec 4} (h : ListedCode old) (c : ErrorCode) : ListedCode (stickyErr old c) := by
  rw [stickyErr]
  split
  · exact listedCode_code c
  · exact h

theorem CodesListed.raiseFault {s : State} (h : CodesListed s) (c : ErrorCode) : CodesListed (s.raiseFault c) := by
  obtain ⟨herr, hout⟩ := h
  exact ⟨listedCode_stickyErr herr c,
    List.forall_mem_append.mpr ⟨hout, List.forall_mem_singleton.mpr (legalResponse_fault c)⟩⟩

theorem CodesListed.respond {s u : State} (h : CodesListed s) (herr : u.err = s.err) (hout : u.outbox = s.outbox)
    (v : Word) : CodesListed (u.respond v) := by
  obtain ⟨hlisted, hlegal⟩ := h
  rw [← herr] at hlisted
  rw [← hout] at hlegal
  exact ⟨hlisted, List.forall_mem_append.mpr ⟨hlegal, List.forall_mem_singleton.mpr (legalResponse_success v)⟩⟩

/-- A reset clears `ERR` and leaves the responses already given (70_reset_and_hazards.md R87). -/
theorem CodesListed.applyReset {s : State} (h : CodesListed s) : CodesListed s.applyReset :=
  ⟨Nat.zero_le 4, h.2⟩

theorem CodesListed.runWord {w : Word} {s t : State} (h : CodesListed s) (ht : runWord w s = .next t) :
    CodesListed t := by
  rcases runWord_cases ht with ⟨c, rfl⟩ | ⟨i, u, v, -, rfl, herr, -, hout, -⟩
  · exact h.raiseFault c
  · exact h.respond herr hout v

/-- Settles O53: a fault records and responds one of the four codes, a success neither, and a reset clears `ERR`. -/
theorem stepKeepsCodesListed : Obligations.StepKeepsCodesListed := by
  intro s t h ht
  have htake (rest : List PortEvent) : CodesListed (s.takeEvent rest) := h
  rcases step_cases s with ⟨-, hs⟩ | ⟨w, rest, -, hs⟩ | ⟨rest, -, hs⟩ | ⟨w, rest, -, hs⟩
  · rwa [← Host.Outcome.next.inj (hs.symm.trans ht)]
  · exact (htake rest).runWord (hs.symm.trans ht)
  all_goals -- a reset, between commands or during one
    rw [← Host.Outcome.next.inj (hs.symm.trans ht)]
    exact (htake rest).applyReset

end Sys2Proof.Safety
end

section
/-! Which fault a command answers (60_exceptions.md R78, R79): the response tells one fault from another and from a
success, so each fault occurs under its own check alone. -/

namespace Sys2Proof.Machine

open Sys2Proof.Safety

/-! ### Results told apart by their response -/

theorem State.raiseFault_injective (s : State) : Function.Injective s.raiseFault := by
  intro c d h
  have hdata : zext32 c.code = zext32 d.code := by simpa using congrArg State.outbox h
  revert hdata
  cases c <;> cases d <;> decide

theorem State.effect_outbox (s : State) (i : Instr) : (s.effect i).outbox = s.outbox := by cases i <;> rfl

theorem State.respond_effect_ne_raiseFault (s : State) (i : Instr) (v : Word) (c : ErrorCode) :
    (s.effect i).respond v ≠ s.raiseFault c := by
  intro h
  simpa [State.effect_outbox] using congrArg State.outbox h

/-! ### The two faults of a command -/

theorem exec_eq_unseeded_iff {i : Instr} {s : State} :
    exec i s = .next (s.raiseFault .unseeded) ↔ readsAcc i = true ∧ s.accV = false := by
  refine ⟨fun h => ?_, fun ⟨hi, hv⟩ => exec_of_unseeded hi hv⟩
  rcases exec_outcome i s with ⟨hi, hv, -⟩ | ⟨-, h'⟩ | ⟨-, v, h'⟩
  · exact ⟨hi, hv⟩
  · exact nomatch s.raiseFault_injective (Host.Outcome.next.inj (h.symm.trans h'))
  · exact absurd (Host.Outcome.next.inj (h'.symm.trans h)) (s.respond_effect_ne_raiseFault i v _)

theorem exec_eq_trlIncomplete_iff {i : Instr} {s : State} :
    exec i s = .next (s.raiseFault .trlIncomplete) ↔
      ∃ j, needsTrailerByte i j = true ∧ s.trV.getLsbD j.toNat = false := by
  refine ⟨fun h => ?_, fun ⟨j, hj, hv⟩ => exec_of_trlIncomplete hj hv⟩
  rcases exec_outcome i s with ⟨-, -, h'⟩ | ⟨hj, -⟩ | ⟨-, v, h'⟩
  · exact nomatch s.raiseFault_injective (Host.Outcome.next.inj (h.symm.trans h'))
  · exact hj
  · exact absurd (Host.Outcome.next.inj (h'.symm.trans h)) (s.respond_effect_ne_raiseFault i v _)

end Sys2Proof.Machine

namespace Sys2Proof.Safety

open Sys2Proof.Machine

/-- No step but the word of a `CRC_SEED` sets `ACC_V` (10_state.md R13). -/
theorem step_accV_of_not_seeded {s t : State} (hv : s.accV = false) (h : step s = .next t)
    (hseed : ∀ v rest, s.inbox ≠ .command (encode (.crcSeed v)) :: rest) : t.accV = false := by
  rcases step_cases s with ⟨-, hs⟩ | ⟨w, rest, hin, hs⟩ | ⟨rest, -, hs⟩ | ⟨w, rest, -, hs⟩
  · rwa [← Host.Outcome.next.inj (hs.symm.trans h)]
  · have hne (v : BitVec 16) : decode w ≠ .command (.crcSeed v) := fun hd =>
      hseed v rest (by rw [decode_eq_command_iff_encode.mp hd, hin])
    exact ((accV_of_runWord (hs.symm.trans h)).2 hne).trans hv
  all_goals -- a reset, between commands or during one
    rw [← Host.Outcome.next.inj (hs.symm.trans h), State.applyReset_accV]

/-- Settles O16: the fault is that of a reader of `ACC` in a block not seeded, and only `CRC_SEED` seeds it. -/
theorem unseededFaultsExactly : Obligations.UnseededFaultsExactly := by
  refine ⟨fun i s => ?_, rfl, fun s t => step_accV_of_not_seeded⟩
  rw [← readsAcc_iff]
  exact exec_eq_unseeded_iff

theorem exists_invalid_byte_iff (m : BitVec 4) : (∃ j : BitVec 2, m.getLsbD j.toNat = false) ↔
    m.getLsbD 0 = false ∨ m.getLsbD 1 = false ∨ m.getLsbD 2 = false ∨ m.getLsbD 3 = false := by
  revert m; decide

/-- Settles O17: the fault is that of a command that needs a trailer byte that is not valid, and the four trailer reads
are the commands that need one. -/
theorem trlIncompleteFaultsExactly : Obligations.TrlIncompleteFaultsExactly := by
  refine fun i s => exec_eq_trlIncomplete_iff.trans ?_
  cases i with
  | trlDecode => simp [needsTrailerByte, exists_invalid_byte_iff]
  | trlReadByte _ | trlReadNid | trlReadCrc => simp [needsTrailerByte]
  | _ => simp [needsTrailerByte] -- no trailer read, so no byte is needed

end Sys2Proof.Safety
end

section
/-! The checks of a command word in their order, and the fault of the first that fails (60_exceptions.md R76 to R81). -/

namespace Sys2Proof.Safety

open Sys2Proof.Machine

/-- Settles O31: an idle step, a reset and every word answer a next state. -/
theorem blockNeverStops : Obligations.BlockNeverStops := by
  intro s
  rcases step_cases s with ⟨-, hs⟩ | ⟨w, rest, -, hs⟩ | ⟨rest, -, hs⟩ | ⟨w, rest, -, hs⟩
  · exact ⟨_, hs⟩
  · rw [hs]
    exact exists_runWord_eq_next w _
  · exact ⟨_, hs⟩
  · exact ⟨_, hs⟩

/-! ### The decoder's checks -/

theorem step_of_illegalOp {s : State} {w : Word} {rest : List PortEvent} (hs : s.inbox = .command w :: rest)
    (hop : 0xE ≤ (opField w).toNat) : step s = .next ((s.takeEvent rest).raiseFault .illegalOp) := by
  rw [step_of_command hs, runWord_of_illegalOp (decode_eq_illegalOp_iff.mpr hop)]

theorem step_of_rsvNonzero {s : State} {w : Word} {rest : List PortEvent} (hs : s.inbox = .command w :: rest)
    (hop : (opField w).toNat < 0xE) (hrow : ∀ r ∈ opcodeMap, w &&& r.mask ≠ r.pattern) :
    step s = .next ((s.takeEvent rest).raiseFault .rsvNonzero) := by
  obtain ⟨-, hrsv, -⟩ := everyWordHasOneMeaning
  rw [step_of_command hs, runWord_of_rsvNonzero ((hrsv w).mpr ⟨hop, hrow⟩)]

/-- Settles O18: 0xE and 0xF are the opcodes past the end of the opcode map. -/
theorem reservedOpcodeFaults : Obligations.ReservedOpcodeFaults := by
  intro s w rest hs hop
  refine step_of_illegalOp hs ?_
  rcases hop with hop | hop <;> rw [opField, hop] <;> decide

/-- A row selects words of its own opcode only (30_encoding.md R41). -/
theorem not_selected_of_opField_eq {w : Word} {r : OpcodeRow} (hr : r ∈ opcodeMap)
    (hop : opField w = opField r.pattern) (hne : w &&& r.mask ≠ r.pattern) :
    ∀ r' ∈ opcodeMap, w &&& r'.mask ≠ r'.pattern := by
  have hrows : ∀ r ∈ opcodeMap, r.mask.extractLsb' 28 4 = BitVec.allOnes 4 ∧
      ∀ r' ∈ opcodeMap, opField r.pattern = opField r'.pattern → r = r' := by decide
  intro r' hr' h
  have hop' : opField w = opField r'.pattern := extractLsb'_of_selects (selects_iff.mpr h) (hrows r' hr').1
  obtain rfl := (hrows r hr).2 r' hr' (hop.symm.trans hop')
  exact hne h

/-- Settles O19: no other row selects the word either, for every row fixes the opcode. -/
theorem reservedBitsFault : Obligations.ReservedBitsFault := by
  intro s w rest r hs hr hop hne
  have hrows : ∀ r ∈ opcodeMap, (opField r.pattern).toNat < 0xE := by decide
  have hlt : (opField w).toNat < 0xE := by
    rw [show opField w = opField r.pattern from hop]
    exact hrows r hr
  exact step_of_rsvNonzero hs hlt (not_selected_of_opField_eq hr hop hne)

/-! ### The command's own checks, read off its word -/

theorem readsAcc_iff_opField (i : Instr) :
    readsAcc i = true ↔ opField (encode i) = 0x2#4 ∨ opField (encode i) = 0x3#4 ∨ opField (encode i) = 0x6#4 := by
  cases i <;> simp [readsAcc, encode]

/-- A trailer read lacks a byte exactly when its bytes are not all valid (60_exceptions.md R79). -/
theorem exists_needed_invalid_iff {i : Instr} {m : BitVec 4} {p : Prop}
    (hp : p ↔ ∀ j, needsTrailerByte i j = true → m.getLsbD j.toNat = true) :
    (∃ j, needsTrailerByte i j = true ∧ m.getLsbD j.toNat = false) ↔ ¬ p := by
  simp [hp]

theorem exists_needed_invalid_iff_opField (i : Instr) (m : BitVec 4) :
    (∃ j, needsTrailerByte i j = true ∧ m.getLsbD j.toNat = false) ↔
      (opField (encode i) = 0x8#4 ∧ m.getLsbD (idxField (encode i)).toNat = false) ∨
      (opField (encode i) = 0x9#4 ∧ m.extractLsb' 0 2 ≠ 0b11#2) ∨
      (opField (encode i) = 0xA#4 ∧ m.extractLsb' 2 2 ≠ 0b11#2) ∨
      (opField (encode i) = 0xD#4 ∧ m ≠ 0b1111#4) := by
  cases i with
  | trlReadByte k => simp [needsTrailerByte, encode]
  | trlReadNid => simp [exists_needed_invalid_iff (trV_low_pair_iff m), encode]
  | trlReadCrc => simp [exists_needed_invalid_iff (trV_high_pair_iff m), encode]
  | trlDecode => simp [exists_needed_invalid_iff (trV_all_iff m), encode]
  | _ => simp [needsTrailerByte, encode]

/-- Settles O20: the decoder makes the first two checks, and the word's opcode says which of the other two its command
makes. -/
theorem checksRunInOrder : Obligations.ChecksRunInOrder := by
  intro s w rest hs
  split_ifs with hop hrow hacc htr
  · exact ⟨_, _, step_of_illegalOp hs hop, rfl, rfl⟩
  · exact ⟨_, _, step_of_rsvNonzero hs (Nat.not_le.mp hop) hrow, rfl, rfl⟩
  all_goals
    obtain ⟨i, hd⟩ := exists_decode_iff_exists_row.mpr (by simpa using hrow)
    obtain rfl := decode_eq_command_iff_encode.mp hd
    rw [stepRunsDecodedCommand s _ i rest hs hd]
  · exact ⟨_, _, exec_of_unseeded ((readsAcc_iff_opField i).mpr hacc.1) hacc.2, rfl, rfl⟩
  · obtain ⟨j, hj, hv⟩ := (exists_needed_invalid_iff_opField i s.trV).mpr htr
    exact ⟨_, _, exec_of_trlIncomplete hj hv, rfl, rfl⟩
  · have hseeded : readsAcc i = true → s.accV = true := fun hi => by
      simpa using mt (And.intro ((readsAcc_iff_opField i).mp hi)) hacc
    have hvalid : ∀ j, needsTrailerByte i j = true → TrailerByteValid s j := by
      simpa using mt (exists_needed_invalid_iff_opField i s.trV).mp htr
    obtain ⟨v, h⟩ := exec_of_ready (s := { s with inbox := rest }) hseeded hvalid
    exact ⟨_, ⟨false, v⟩, h, congrArg (· ++ [_]) (State.effect_outbox _ i), rfl⟩

/-! ### A fault is precise -/

/-- A fault, in the fields of the state and by the data of its response (60_exceptions.md R81). -/
theorem raiseFault_eq_of_data (s : State) (c : ErrorCode) {d : Word} (hd : d = zext32 c.code) :
    s.raiseFault c = { s with
      err := if s.err = 0 then d.setWidth 4 else s.err
      outbox := s.outbox ++ [⟨true, (d.setWidth 4).setWidth 32⟩] } := by
  rw [hd, setWidth_zext32_code]
  rfl

/-- Settles O21: a word that does not succeed raises a fault, and the next word is taken in the state it leaves. -/
theorem faultChangesOnlyErr : Obligations.FaultChangesOnlyErr := by
  intro s w rest hs
  obtain ⟨t, ht⟩ := exists_runWord_eq_next w (s.takeEvent rest)
  have hnext (hin : t.inbox = rest) (v : Word) (i : Instr) (rest' : List PortEvent) (hrest : rest = .command v :: rest')
      (hd : decode v = .command i) : step t = exec i { t with inbox := rest' } :=
    stepRunsDecodedCommand t v i rest' (hin.trans hrest) hd
  rw [step_of_command hs]
  rcases runWord_cases ht with ⟨c, rfl⟩ | ⟨i, u, v, -, rfl, -, hin, hout, -⟩
  · exact ⟨_, ⟨true, zext32 c.code⟩, ht, rfl, fun _ => raiseFault_eq_of_data _ c rfl, hnext rfl⟩
  · exact ⟨_, ⟨false, v⟩, ht, congrArg (· ++ [_]) hout, nofun, hnext hin⟩

end Sys2Proof.Safety
end

section
/-! Reset (70_reset_and_hazards.md R87, R88), and the hazards of `ACC` and of the trailer that the order of the commands
makes (R90 to R92). -/

namespace Sys2Proof.Safety

open Sys2Proof.Machine

/-! ### Reset -/

/-- Every register has its reset value; the port and the model's counter of free values are as they were. -/
theorem sameValues_applyReset (s : State) :
    SameValues s.applyReset { State.reset with inbox := s.inbox, outbox := s.outbox } where
  accV := rfl
  trV := rfl
  err := rfl
  inbox := rfl
  outbox := rfl
  acc _ := rfl
  tr _ _ := rfl

/-- Only a reset clears `ERR`: an idle step and a command word keep a code once it is recorded (10_state.md R17). -/
theorem reset_of_step_clears_err {s t : State} (h : step s = .next t) (hs : s.err ≠ 0#4) (ht : t.err = 0#4) :
    ∃ rest, s.inbox = .reset :: rest ∨ ∃ w, s.inbox = .resetDuring w :: rest := by
  rcases step_cases s with ⟨hin, -⟩ | ⟨w, rest, -, hstep⟩ | ⟨rest, hin, -⟩ | ⟨w, rest, hin, -⟩
  · exact absurd (eq_of_step_idle hin h ▸ ht) hs
  · have hkept : t.err = s.err := (err_of_runWord (hstep.symm.trans h)).1 hs
    exact absurd (hkept.symm.trans ht) hs
  · exact ⟨rest, .inl hin⟩
  · exact ⟨rest, .inr ⟨w, hin⟩⟩

/-- Settles O33: a reset of either kind is `State.applyReset`, and the other events keep a nonzero `ERR`. -/
theorem resetClearsState : Obligations.ResetClearsState :=
  ⟨fun s rest hs => ⟨_, step_of_reset hs, rfl, rfl, rfl, rfl, rfl, sameValues_applyReset (s.takeEvent rest)⟩,
    fun _ _ => reset_of_step_clears_err⟩

/-! ### The accumulator carried over, and the trailer's snapshot of it -/

/-- Settles O45: the two messages are fed as one, and the CRC of a concatenation chains. -/
theorem carriedOverAccumulator : Obligations.CarriedOverAccumulator := by
  intro s first second hv
  refine ⟨_, execAll_crcBytes (first ++ second) s hv, crcChains first second s.acc, hv, rfl, ?_⟩
  rw [List.length_append]

/-- `TRL_READ_CRC` in a block that holds both bytes of the CRC field. -/
theorem exec_trlReadCrc_of_holdsCrc {s : State} {crc : BitVec 16} (hlo : HoldsByte s 2 (loByte crc))
    (hhi : HoldsByte s 3 (hiByte crc)) : exec .trlReadCrc s = .next (s.respond (zext32 crc)) := by
  rw [exec_trlReadCrc_of_holdsByte hlo hhi, join16_hiByte_loByte]

/-- Bytes fed to the CRC leave the trailer (40_crc.md R51). -/
theorem exists_execAll_crcBytes_keepsTrailer {s : State} (hv : s.accV = true) (bytes : List (BitVec 8)) :
    ∃ t, execAll (bytes.map .crcByte) s = .next t ∧ t.acc = crc16 bytes s.acc ∧ t.err = s.err ∧
      t.outbox = s.outbox ++ List.replicate bytes.length ⟨false, 0⟩ ∧ ∀ i b, HoldsByte s i b → HoldsByte t i b :=
  ⟨_, execAll_crcBytes bytes s hv, rfl, rfl, rfl, fun _ _ h => ⟨h.valid, h.byte⟩⟩

/-- Settles O46: the copy holds the first `ACC`, and the bytes fed after it write no trailer byte. -/
theorem trailerCrcIsSnapshot : Obligations.TrailerCrcIsSnapshot := by
  intro s bytes hv
  have hcopy : exec .trlCrcFromAcc s = .next ((s.putTcrc s.acc).respond 0) := exec_eq_of_ready (fun _ => hv) nofun
  obtain ⟨hlo, hhi⟩ := holdsByte_putTcrc s s.acc
  obtain ⟨t, hfeed, hacc, herr, hout, hkeep⟩ :=
    exists_execAll_crcBytes_keepsTrailer (s := (s.putTcrc s.acc).respond 0) hv bytes
  have hread : exec .trlReadCrc t = .next (t.respond (zext32 s.acc)) :=
    exec_trlReadCrc_of_holdsCrc (hkeep _ _ (hlo.respond 0)) (hkeep _ _ (hhi.respond 0))
  refine ⟨t.respond (zext32 s.acc), ⟨false, 0⟩ :: List.replicate bytes.length ⟨false, 0⟩, ?_, hacc, herr, ?_⟩
  · exact (execAll_append ((execAll_cons hcopy _).trans hfeed)).trans (execAll_cons hread [])
  · simp [hout, zext32]

/-! ### Bytes of an earlier trailer -/

theorem putTrByte_trV_of_all {s : State} (hv : s.trV = 0b1111#4) (i : BitVec 2) (b : BitVec 8) :
    (s.putTrByte i b).trV = 0b1111#4 := by
  rw [State.putTrByte_trV, hv]
  revert i; decide

/-- A write to byte 0 changes the low byte of the trailer's word only. -/
theorem trailerWord_putTrByte_zero (s : State) (b : BitVec 8) :
    (s.putTrByte 0#2 b).trailerWord = join32 (s.trByte 3#2) (s.trByte 2#2) (s.trByte 1#2) b := by
  rw [State.trailerWord, State.trByte_putTrByte_self, State.trByte_putTrByte_ne s b (by decide),
    State.trByte_putTrByte_ne s b (by decide), State.trByte_putTrByte_ne s b (by decide)]

/-- Writing the network ID field leaves the CRC bytes. -/
theorem HoldsByte.putNid {s : State} {i : BitVec 2} {b : BitVec 8} (h : HoldsByte s i b) (h₀ : i ≠ 0#2) (h₁ : i ≠ 1#2)
    (v : BitVec 16) : HoldsByte (s.putNid v) i b := (h.putTrByte h₀ _).putTrByte h₁ _

/-- Settles O50: a write leaves the other bytes held, and a read does not ask when a byte was written. -/
theorem staleTrailerBytesMix : Obligations.StaleTrailerBytesMix := by
  refine ⟨fun s b hv => ?_, fun s n hv => ?_⟩
  · have hdecode := exec_trlDecode_of_trV_all (s := (s.putTrByte 0#2 b).respond 0) (putTrByte_trV_of_all hv 0#2 b)
    have hword : ((s.putTrByte 0#2 b).respond 0).trailerWord = _ := trailerWord_putTrByte_zero s b
    refine ⟨_, execAll_cons hdecode [], rfl, ?_⟩
    rw [State.respond_outbox, hword, State.respond_outbox, State.putTrByte_outbox, List.append_assoc]
    rfl
  · have hvalid := (trV_high_pair_iff s.trV).mp hv
    have hlo : HoldsByte s 2 s.tr[2] := ⟨hvalid 2 rfl, rfl⟩
    have hhi : HoldsByte s 3 s.tr[3] := ⟨hvalid 3 rfl, rfl⟩
    have hread := exec_trlReadCrc_of_holdsByte ((hlo.putNid (by decide) (by decide) n).respond 0)
      ((hhi.putNid (by decide) (by decide) n).respond 0)
    refine ⟨_, execAll_cons hread [], rfl, ?_⟩
    simp [zext32, join16]

end Sys2Proof.Safety
end
